-- ==== Sys2Proof/Word.lean ====
section
/-! DEFINITION. The widths of the machine's values, each named once. -/

namespace Sys2Proof

/-- A byte of the address space (20 R42). -/
abbrev Byte := BitVec 8

/-- A 32-bit instruction word (30 R50). -/
abbrev Word := BitVec 32

/-- The contents of a GPR, and an address (10 R20, R30; 00 R5: `XLEN = 64`). -/
abbrev Dword := BitVec 64

/-- A GPR number, the 5-bit fields RT, RA, RB, RC (30 R57). -/
abbrev GprNum := BitVec 5

/-- A CR Field number, the 3-bit fields BF, BFA, BFB (30 R58). -/
abbrev CrNum := BitVec 3

/-- Four bits: the value of a CR Field, a write mask or a look-up table of `LUT2` (10 R25, 30 R59, 42 R100). -/
abbrev Nibble := BitVec 4

/-- The eight bits of the immediate look-up table TLI (30 R60, R61). -/
abbrev Table8 := BitVec 8

end Sys2Proof
end

