-- ==== Sys2Proof/Config.lean ====
section
/-! DEFINITION. What is fixed for a run: the program text and the parameters of 92_eei_decisions.md. -/

namespace Sys2Proof

/-- The eight opcode numbers, which the source does not allocate (00 R6, 30 R65; OPEN, 92 D3). -/
structure OpcodeParams where
  poTernlogi   : BitVec 6
  xoTernlogi   : BitVec 2
  poCrternlogi : BitVec 6
  xoCrternlogi : BitVec 5
  poBinlog     : BitVec 6
  xoBinlog     : BitVec 5
  poCrbinlog   : BitVec 6
  xoCrbinlog   : BitVec 5
  deriving DecidableEq, Repr

/-- TESTPARAMS, the labelled fixture of 95_test_vectors.md. NOT an opcode allocation.
DESIGN CHOICE (unsafe, log 4): the numbers the launch state names, since the spec leaves them OPEN. -/
def OpcodeParams.testParams : OpcodeParams where
  poTernlogi   := 22
  xoTernlogi   := 0b00
  poCrternlogi := 22
  xoCrternlogi := 0b00001
  poBinlog     := 22
  xoBinlog     := 0b00110
  poCrbinlog   := 22
  xoCrbinlog   := 0b00010

/-- `LUT_INDEX_ORDER`: which end of a look-up table is element 0 (00 R7, R10; 92 D2; log 2). -/
inductive LutOrder
  | msb0
  | lsb0
  deriving DecidableEq, Repr

/-- `RESERVED_NONZERO`: what a `crbinlog` word with a reserved bit set does (30 R67; 92 D4; log 5). -/
inductive ReservedPolicy
  | refuse
  | ignore
  deriving DecidableEq, Repr

/-- `INSN_BYTE_ORDER`: how the four bytes of a word lie in memory (20 R42; OPEN, 92 D11; log 13). -/
inductive ByteOrder
  | big
  | little
  deriving DecidableEq, Repr

/-- Everything that is configuration and not state (10 R34): held in State because the step takes no
other argument, and changed by no step (log 3). -/
structure Config where
  opcodes         : OpcodeParams
  lutOrder        : LutOrder
  reservedNonzero : ReservedPolicy
  /-- `MODE64` (41 R83; 92 D7; log 7) -/
  mode64          : Bool
  insnByteOrder   : ByteOrder
  /-- `TEXT_BASE`, the byte address of `text[0]` (20 R41) -/
  textBase        : Dword
  /-- the program `text[0..L-1]` (20 R41) -/
  text            : List Word
  deriving DecidableEq, Repr

/-- The configuration of the launch state: the spec's values `msb0`, `refuse`, `true`; no program loaded;
and for the OPEN parameters the values of log 4 (opcodes), log 12 (`textBase`) and log 13 (byte order),
each a DESIGN CHOICE (unsafe) that no statement may rest on. -/
def Config.launch : Config where
  opcodes         := OpcodeParams.testParams
  lutOrder        := .msb0
  reservedNonzero := .refuse
  mode64          := true
  insnByteOrder   := .big
  textBase        := 0
  text            := []

end Sys2Proof
end

