-- ==== Sys2Proof/Machine/Bits.lean ====
section
/-! DEFINITION. Bits numbered from the most significant end, and the bytes of an instruction word. -/

namespace Sys2Proof

/-- `v[a:b]` in MSB0 numbering, bit `a` most significant (00 R11, R18). The single bit `v[i]` is
`BitVec.getMsbD v i` (00 R8). -/
def slice {n : Nat} (v : BitVec n) (a b : Nat) : BitVec (b - a + 1) :=
  v.extractLsb' (n - 1 - b) (b - a + 1)

/-- `b*n`: `n` copies of the bit `b` (00 R12). -/
def copies (n : Nat) (b : Bool) : BitVec n :=
  if b then BitVec.allOnes n else 0#n

/-- The instruction word whose bytes at rising addresses are `b0 b1 b2 b3` (20 R42). -/
def wordOfBytes (order : ByteOrder) (b0 b1 b2 b3 : Byte) : Word :=
  match order with
  | .big => b0 ++ b1 ++ b2 ++ b3
  | .little => b3 ++ b2 ++ b1 ++ b0

/-- The byte at offset `k` (0 to 3) from the lowest address of an instruction word (20 R42). -/
def byteOfWord (order : ByteOrder) (w : Word) (k : Nat) : Byte :=
  match order with
  | .big => w.extractLsb' (24 - 8 * k) 8
  | .little => w.extractLsb' (8 * k) 8

/-- The four bytes of an instruction word at rising addresses. -/
def bytesOfWord (order : ByteOrder) (w : Word) : List Byte :=
  [byteOfWord order w 0, byteOfWord order w 1, byteOfWord order w 2, byteOfWord order w 3]

end Sys2Proof
end

