-- ==== Sys2Proof/Syntax.lean ====
section
/-! DEFINITION. The five instructions as syntax, one constructor per row of opcode_table.json. -/

namespace Sys2Proof

/-- The five rows of the opcode map (30 R65). -/
inductive Mnemonic
  | ternlogi
  | ternlogiRc
  | crternlogi
  | binlog
  | crbinlog
  deriving DecidableEq, Repr

/-- The mnemonic as assembled (30 R71 to R74). -/
def Mnemonic.name : Mnemonic → String
  | .ternlogi => "ternlogi"
  | .ternlogiRc => "ternlogi."
  | .crternlogi => "crternlogi"
  | .binlog => "binlog"
  | .crbinlog => "crbinlog"

/-- An instruction with its operands. Operand widths are those of the forms (30 R51 to R53). -/
inductive Instr
  /-- `ternlogi RT, RA, RB, TLI` (41 R81) -/
  | ternlogi (rt ra rb : GprNum) (tli : Table8)
  /-- `ternlogi. RT, RA, RB, TLI`, the record form Rc = 1 (41 R82) -/
  | ternlogiRc (rt ra rb : GprNum) (tli : Table8)
  /-- `crternlogi BF, BFA, BFB, TLI, msk` (41 R84) -/
  | crternlogi (bf bfa bfb : CrNum) (tli : Table8) (msk : Nibble)
  /-- `binlog RT, RA, RB, RC, nh` (42 R101) -/
  | binlog (rt ra rb rc : GprNum) (nh : Bool)
  /-- `crbinlog BF, BFA, BFB, msk` (42 R102). `rsv` is what stands in the reserved bits, `rsv[0:6]` in
  bits 19:25 and `rsv[7]` in bit 31: no operand, kept so that the word of a fault record and the rule
  of reserved bits can be told from the instruction (30 R67; DESIGN CHOICE, safe, log 23). -/
  | crbinlog (bf bfa bfb : CrNum) (msk : Nibble) (rsv : BitVec 8)
  deriving DecidableEq, Repr

/-- The row of the opcode map an instruction belongs to. -/
def Instr.mnemonic : Instr → Mnemonic
  | .ternlogi _ _ _ _ => .ternlogi
  | .ternlogiRc _ _ _ _ => .ternlogiRc
  | .crternlogi _ _ _ _ _ => .crternlogi
  | .binlog _ _ _ _ _ => .binlog
  | .crbinlog _ _ _ _ _ => .crbinlog

end Sys2Proof
end

