-- ==== Sys2Proof/Decode.lean ====
section
/-! DEFINITION. The opcode map, the decoder, and after it the encoder (30_encoding.md). -/

namespace Sys2Proof

/-- The mask of each row (30 R65). -/
def rowMask : Mnemonic → Word
  | .ternlogi => 0xFC000007
  | .ternlogiRc => 0xFC000007
  | .crternlogi => 0xFC00003E
  | .binlog => 0xFC00001F
  | .crbinlog => 0xFC00003E

/-- The match of each row, over the open opcode numbers (30 R65). -/
def rowMatch (p : OpcodeParams) : Mnemonic → Word
  | .ternlogi => p.poTernlogi.setWidth 32 <<< 26 ||| p.xoTernlogi.setWidth 32 <<< 1
  | .ternlogiRc => p.poTernlogi.setWidth 32 <<< 26 ||| p.xoTernlogi.setWidth 32 <<< 1 ||| 1
  | .crternlogi => p.poCrternlogi.setWidth 32 <<< 26 ||| p.xoCrternlogi.setWidth 32 <<< 1
  | .binlog => p.poBinlog.setWidth 32 <<< 26 ||| p.xoBinlog.setWidth 32
  | .crbinlog => p.poCrbinlog.setWidth 32 <<< 26 ||| p.xoCrbinlog.setWidth 32 <<< 1

/-- "A word selects an instruction when (w & mask) = match" (30 R65). -/
def rowSelects (p : OpcodeParams) (w : Word) (m : Mnemonic) : Bool :=
  w &&& rowMask m == rowMatch p m

/-- The rows of the opcode map in the table's order. -/
def allRows : List Mnemonic :=
  [.ternlogi, .ternlogiRc, .crternlogi, .binlog, .crbinlog]

/-- Two rows differ inside the intersection of their masks (30 R65). -/
def OpcodeParams.rowsDiffer (p : OpcodeParams) (m m' : Mnemonic) : Bool :=
  (rowMatch p m ^^^ rowMatch p m') &&& rowMask m &&& rowMask m' != 0

/-- The constraint that makes selection a function: "for every two distinct rows X and Y" (30 R65). -/
def OpcodeParams.valid (p : OpcodeParams) : Bool :=
  allRows.all fun m => allRows.all fun m' => m == m' || p.rowsDiffer m m'

/-- `msk (9:10,14:15)`, the first piece most significant (30 R59; 92 D18, log 17). -/
def maskField (w : Word) : Nibble :=
  slice w 9 10 ++ slice w 14 15

/-- `TLI (21:25,19:20,31)` of the CRB-form, the first piece most significant (30 R61; 92 D18, log 17). -/
def crbTableField (w : Word) : Table8 :=
  slice w 21 25 ++ slice w 19 20 ++ slice w 31 31

/-- The reserved bits 19:25 and 31 of a `crbinlog` word (30 R67). -/
def reservedField (w : Word) : BitVec 8 :=
  slice w 19 25 ++ slice w 31 31

/-- The operands of a word, by the form of its row (30 R51 to R53, R57 to R63). -/
def decodeFields (m : Mnemonic) (w : Word) : Instr :=
  match m with
  | .ternlogi => .ternlogi (slice w 6 10) (slice w 11 15) (slice w 16 20) (slice w 21 28)
  | .ternlogiRc => .ternlogiRc (slice w 6 10) (slice w 11 15) (slice w 16 20) (slice w 21 28)
  | .crternlogi =>
    .crternlogi (slice w 6 8) (slice w 11 13) (slice w 16 18) (crbTableField w) (maskField w)
  | .binlog =>
    .binlog (slice w 6 10) (slice w 11 15) (slice w 16 20) (slice w 21 25) (w.getMsbD 26)
  | .crbinlog => .crbinlog (slice w 6 8) (slice w 11 13) (slice w 16 18) (maskField w) (reservedField w)

/-- Why the decoder gives a word no instruction. -/
inductive DecodeReject
  /-- no row is selected (30 R68) -/
  | wordOutsideSpec
  /-- more than one row is selected: opcode numbers that 30 R65 forbids (DESIGN CHOICE, safe, log 22) -/
  | ambiguousOpcode
  deriving DecidableEq, Repr

/-- What the decoder answers. -/
inductive DecodeResult
  | instr (i : Instr)
  | rejected (why : DecodeReject)
  deriving DecidableEq, Repr

/-- The decoder's steps (1) and (2) of 30 R56. Steps (3) and (4), the tests of `msk` and of the reserved
bits, are made by the instruction's meaning before it reads anything (60 R123; log 23). -/
def decode (p : OpcodeParams) (w : Word) : DecodeResult :=
  match allRows.filter (rowSelects p w) with
  | [] => .rejected .wordOutsideSpec
  | [m] => .instr (decodeFields m w)
  | _ :: _ :: _ => .rejected .ambiguousOpcode

/-- What the decoder answers on bytes. -/
inductive BytesResult
  /-- a word's decoding, and the bytes after it -/
  | decoded (r : DecodeResult) (rest : List Byte)
  /-- fewer than the four bytes of a word (30 R50) -/
  | truncatedWord
  deriving DecidableEq, Repr

/-- Decoding from bytes at rising addresses. -/
def decodeBytes (order : ByteOrder) (p : OpcodeParams) : List Byte → BytesResult
  | b0 :: b1 :: b2 :: b3 :: rest => .decoded (decode p (wordOfBytes order b0 b1 b2 b3)) rest
  | _ => .truncatedWord

/-- The instruction of a decoder's answer. -/
def BytesResult.toOption : BytesResult → Option Instr
  | .decoded (.instr i) _ => some i
  | .decoded (.rejected _) _ => none
  | .truncatedWord => none

/-- The instruction the decoder reads from an instruction whose bits are `w`, bit 0 the least significant,
all bits above `nbits` zero, laid out in the launch byte order under the launch opcode numbers (log 4, log 13). -/
def decodeTableWord (nbits w : Nat) : Option Instr :=
  (decodeBytes Config.launch.insnByteOrder Config.launch.opcodes
    (bytesOfWord Config.launch.insnByteOrder (BitVec.ofNat 32 (w % 2 ^ nbits)))).toOption

/-- The encoder: the fields in the order the forms print them, bit 0 first (30 R51 to R53, R59, R61, R77). -/
def encode (p : OpcodeParams) : Instr → Word
  | .ternlogi rt ra rb tli => p.poTernlogi ++ rt ++ ra ++ rb ++ tli ++ p.xoTernlogi ++ 0#1
  | .ternlogiRc rt ra rb tli => p.poTernlogi ++ rt ++ ra ++ rb ++ tli ++ p.xoTernlogi ++ 1#1
  | .crternlogi bf bfa bfb tli msk =>
    p.poCrternlogi ++ bf ++ slice msk 0 1 ++ bfa ++ slice msk 2 3 ++ bfb ++ slice tli 5 6 ++ slice tli 0 4 ++
      p.xoCrternlogi ++ slice tli 7 7
  | .binlog rt ra rb rc nh => p.poBinlog ++ rt ++ ra ++ rb ++ rc ++ BitVec.ofBool nh ++ p.xoBinlog
  | .crbinlog bf bfa bfb msk rsv =>
    p.poCrbinlog ++ bf ++ slice msk 0 1 ++ bfa ++ slice msk 2 3 ++ bfb ++ slice rsv 0 6 ++
      p.xoCrbinlog ++ slice rsv 7 7

/-- The bytes of an instruction at rising addresses. -/
def encodeBytes (order : ByteOrder) (p : OpcodeParams) (i : Instr) : List Byte :=
  bytesOfWord order (encode p i)

end Sys2Proof
end

