-- ==== Sys2Proof/Machine/State.lean ====
section
/-! DEFINITION. The machine's state, the reasons a step stops, and the launch state (10_state.md). -/

namespace Sys2Proof.Machine

/-- 10 R34: the tuple (GPR[0..31], CR, SO, pc), and the configuration of the run, which no step changes
(log 3). -/
structure State where
  /-- `GPR[0]` to `GPR[31]` (10 R20) -/
  gpr    : Vector Dword 32
  /-- the Condition Register; its leftmost bit is CR bit 32 (10 R24) -/
  cr     : BitVec 32
  /-- the summary-overflow bit `SO` (10 R28) -/
  so     : Bool
  /-- the byte address of the instruction being executed (10 R30) -/
  pc     : Dword
  /-- the program text and the parameters, fixed for a run (10 R34) -/
  config : Config
  deriving DecidableEq, Repr

/-- Why the machine stops with a fault. -/
inductive Fault
  /-- The Illegal Instruction trap, raised by `crternlogi` and `crbinlog` with `msk = 0`; the record
  carries the word and its address (60 R120, R121). Terminal in this model: safe, log 10. -/
  | illegalInstruction (word : Word) (address : Dword)
  /-- Raised by the fetch at an address that is neither that of a word of the text nor its end: the spec
  says no other address is populated (20 R41, R44). Safe, log 21. -/
  | fetchOutsideText (address : Dword)
  deriving DecidableEq, Repr

/-- Why the model gives a step no meaning. -/
inductive Refusal
  /-- Raised by `exec`'s arm of an instruction that has no meaning yet. Safe; no arm is left. -/
  | notModelled (mnemonic : String)
  /-- Raised by the step on a word that is none of the five (30 R68): on the chip it may be any other
  instruction. Safe, log 6. -/
  | wordOutsideSpec (word : Word)
  /-- Raised by the step on a word that more than one row selects, under opcode numbers that 30 R65
  forbids. Safe, log 22. -/
  | ambiguousOpcode (word : Word)
  /-- Raised by `crbinlog` when a reserved bit is set under `RESERVED_NONZERO = refuse` (30 R67).
  Safe, log 5. -/
  | reservedBitsSet (word : Word)
  /-- Raised by the step when `pc` is at the end of the text: the run has ended normally and the state
  is its final state (70 R145). Safe, log 19. -/
  | endOfText
  deriving DecidableEq, Repr

/-- The launch state (10 R33, 70 R140, R141): `pc = TEXT_BASE`. The spec leaves every GPR, CR and SO
unspecified; zero is the model's DESIGN CHOICE (unsafe, log 14), and no statement may rest on it. -/
def State.reset : State where
  gpr    := Vector.replicate 32 0#64
  cr     := 0#32
  so     := false
  pc     := Config.launch.textBase
  config := Config.launch

end Sys2Proof.Machine
end

