-- ==== Sys2Proof/Machine/Operands.lean ====
section
/-! DEFINITION. How an instruction reads and writes its operands. -/

namespace Sys2Proof.Machine

/-- `GPR[n]` (00 R17). Register 0 is a register like any other (10 R22). -/
def State.readGpr (s : State) (n : GprNum) : Dword :=
  s.gpr[n.toNat]'n.isLt

/-- `GPR[n] <- v`, all 64 bits (00 R17, 10 R21). -/
def State.writeGpr (s : State) (n : GprNum) (v : Dword) : State :=
  { s with gpr := s.gpr.set n.toNat v n.isLt }

/-- `CRF(n)`, bits `4n+32 : 4n+35` of a CR value (10 R25; 00 R18: `(cr >> (28 - 4*n)) & 0xF`). -/
def crField (cr : BitVec 32) (n : CrNum) : Nibble :=
  cr.extractLsb' (28 - 4 * n.toNat) 4

/-- `CRF(n)` of the state (00 R17). -/
def State.readCrField (s : State) (n : CrNum) : Nibble :=
  crField s.cr n

/-- `CR[k]` for `k` in 32 to 63, numbered as the spec numbers the CR (10 R24; 00 R18). -/
def State.crBit (s : State) (k : Nat) : Bool :=
  s.cr.getMsbD (k - 32)

/-- The table of `binlog`: bits 56:59 of GPR[RC] when `nh` is 1, else bits 60:63 (42 R101, 30 R62). -/
def binlogTable (c : Dword) (nh : Bool) : Nibble :=
  if nh then slice c 56 59 else slice c 60 63

/-- Element `j` of a look-up table (00 R10, R18; log 2). -/
def tableBit {n : Nat} (order : LutOrder) (tbl : BitVec n) (j : Nat) : Bool :=
  match order with
  | .msb0 => tbl.getMsbD j
  | .lsb0 => tbl.getLsbD j

end Sys2Proof.Machine
end

