-- ==== Sys2Proof/Machine/Flags.lean ====
section
/-! DEFINITION. How the Condition Register is written: the CR0 record and the masked CR-field write. -/

namespace Sys2Proof.Machine

/-- A CR value with field `n` replaced and the other 28 bits kept (10 R25). -/
def setCrField (cr : BitVec 32) (n : CrNum) (v : Nibble) : BitVec 32 :=
  (cr &&& ~~~(0xF#32 <<< (28 - 4 * n.toNat))) ||| v.setWidth 32 <<< (28 - 4 * n.toNat)

/-- LT, GT, EQ of the signed comparison of a value with zero: `100`, `010` or `001` (41 R83). -/
def signClass {n : Nat} (v : BitVec n) : BitVec 3 :=
  if v.toInt < 0 then 0b100#3 else if v.toInt > 0 then 0b010#3 else 0b001#3

/-- The CR0 value of a result: from all 64 bits in 64-bit mode, else from bits 32:63; its last bit is a
copy of SO (41 R83; PRESUMED by the spec from the base ISA, log 8). -/
def cr0Value (mode64 : Bool) (result : Dword) (so : Bool) : Nibble :=
  (if mode64 then signClass result else signClass (slice result 32 63)) ++ BitVec.ofBool so

/-- CR0 recording, `CR[32:35] <- c || SO` (41 R83). -/
def State.recordCr0 (s : State) (result : Dword) : State :=
  { s with cr := setCrField s.cr 0#3 (cr0Value s.config.mode64 result s.so) }

/-- The new value of a CR Field under a write mask (41 R85: `(old & ~msk4) | (val & msk4)`). -/
def maskedField (old val msk : Nibble) : Nibble :=
  (old &&& ~~~msk) ||| (val &&& msk)

/-- Masked CR-field write (41 R85). -/
def State.writeCrMasked (s : State) (bf : CrNum) (val msk : Nibble) : State :=
  { s with cr := setCrField s.cr bf (maskedField (s.readCrField bf) val msk) }

end Sys2Proof.Machine
end

