-- ==== Sys2Proof/Machine/Ops.lean ====
section
/-! DEFINITION. The operations the instructions share: the two look-ups, completion, and the trap. -/

namespace Sys2Proof.Machine

/-- `LUT3(tbl, x, y, z)`, the source's OR of eight terms (41 R80). Element `4x + 2y + z` of the table is
picked at each bit position. -/
def lut3 {n : Nat} (order : LutOrder) (tbl : Table8) (x y z : BitVec n) : BitVec n :=
  (~~~x &&& ~~~y &&& ~~~z &&& copies n (tableBit order tbl 0)) |||
  (~~~x &&& ~~~y &&& z &&& copies n (tableBit order tbl 1)) |||
  (~~~x &&& y &&& ~~~z &&& copies n (tableBit order tbl 2)) |||
  (~~~x &&& y &&& z &&& copies n (tableBit order tbl 3)) |||
  (x &&& ~~~y &&& ~~~z &&& copies n (tableBit order tbl 4)) |||
  (x &&& ~~~y &&& z &&& copies n (tableBit order tbl 5)) |||
  (x &&& y &&& ~~~z &&& copies n (tableBit order tbl 6)) |||
  (x &&& y &&& z &&& copies n (tableBit order tbl 7))

/-- `LUT2(tbl, x, y)`, the source's OR of four terms (42 R100). -/
def lut2 {n : Nat} (order : LutOrder) (tbl : Nibble) (x y : BitVec n) : BitVec n :=
  (~~~x &&& ~~~y &&& copies n (tableBit order tbl 0)) |||
  (~~~x &&& y &&& copies n (tableBit order tbl 1)) |||
  (x &&& ~~~y &&& copies n (tableBit order tbl 2)) |||
  (x &&& y &&& copies n (tableBit order tbl 3))

/-- `pc <- (pc + 4) mod 2^64` (10 R31). -/
def State.advance (s : State) : State :=
  { s with pc := s.pc + 4 }

/-- An instruction completes: its writes stand and the pc moves past its word (10 R31). -/
def complete (s : State) : Host.Outcome State Fault Refusal :=
  .next s.advance

/-- `raise IllegalInstruction(w)`, the one way an exception is taken: nothing is written, the pc stays, and
the record holds the word and its address (60 R120, R121, R125; TRAP_DELIVERY is OPEN, log 10). There is no
return from it (60 R126). -/
def raiseIllegalInstruction (i : Instr) (s : State) : Host.Outcome State Fault Refusal :=
  .fault (.illegalInstruction (encode s.config.opcodes i) s.pc)

end Sys2Proof.Machine
end

