-- ==== Sys2Proof/Machine/Binary.lean ====
section
/-! DEFINITION. The dynamic binary logic instructions: binlog and crbinlog (42_binary_logic.md). A table that
comes from a register or a CR Field is MSB0 whatever LUT_INDEX_ORDER is (92 D2; log 2). -/

namespace Sys2Proof.Machine

/-- `binlog RT, RA, RB, RC, nh` (42 R101). -/
def execBinlog (rt ra rb rc : GprNum) (nh : Bool) (s : State) : Host.Outcome State Fault Refusal :=
  complete (s.writeGpr rt
    (lut2 .msb0 (binlogTable (s.readGpr rc) nh) (s.readGpr ra) (s.readGpr rb)))

/-- `crbinlog BF, BFA, BFB, msk` (42 R102): the `msk` test first, then the reserved bits (60 R123, 30 R67),
then the effect. -/
def execCrbinlog (bf bfa bfb : CrNum) (msk : Nibble) (rsv : BitVec 8) (s : State) :
    Host.Outcome State Fault Refusal :=
  if msk = 0#4 then raiseIllegalInstruction (.crbinlog bf bfa bfb msk rsv) s
  else if rsv ≠ 0#8 ∧ s.config.reservedNonzero = .refuse then
    .refused (.reservedBitsSet (encode s.config.opcodes (.crbinlog bf bfa bfb msk rsv)))
  else
    complete (s.writeCrMasked bf
      (lut2 .msb0 (s.readCrField bfb) (s.readCrField bf) (s.readCrField bfa)) msk)

end Sys2Proof.Machine
end

