-- ==== Sys2Proof/Machine/Ternary.lean ====
section
/-! DEFINITION. The ternary logic instructions: ternlogi, ternlogi. and crternlogi (41_ternary_logic.md). -/

namespace Sys2Proof.Machine

/-- The result of the two GPR forms, from the old GPR[RT], GPR[RA], GPR[RB] (41 R81, 00 R16). -/
def ternaryResult (rt ra rb : GprNum) (tli : Table8) (s : State) : Dword :=
  lut3 s.config.lutOrder tli (s.readGpr rt) (s.readGpr ra) (s.readGpr rb)

/-- `ternlogi RT, RA, RB, TLI` (41 R81). -/
def execTernlogi (rt ra rb : GprNum) (tli : Table8) (s : State) : Host.Outcome State Fault Refusal :=
  complete (s.writeGpr rt (ternaryResult rt ra rb tli s))

/-- `ternlogi. RT, RA, RB, TLI`: the same, then CR0 from the new value of GPR[RT] and SO (41 R82). -/
def execTernlogiRc (rt ra rb : GprNum) (tli : Table8) (s : State) : Host.Outcome State Fault Refusal :=
  complete ((s.writeGpr rt (ternaryResult rt ra rb tli s)).recordCr0 (ternaryResult rt ra rb tli s))

/-- `crternlogi BF, BFA, BFB, TLI, msk` (41 R84). -/
def execCrternlogi (bf bfa bfb : CrNum) (tli : Table8) (msk : Nibble) (s : State) :
    Host.Outcome State Fault Refusal :=
  if msk = 0#4 then raiseIllegalInstruction (.crternlogi bf bfa bfb tli msk) s
  else
    complete (s.writeCrMasked bf
      (lut3 s.config.lutOrder tli (s.readCrField bf) (s.readCrField bfa) (s.readCrField bfb)) msk)

end Sys2Proof.Machine
end

