-- ==== Sys2Proof/Machine/Dispatch.lean ====
section
/-! DEFINITION. One arm per constructor of Instr. -/

namespace Sys2Proof.Machine

def exec (i : Instr) (s : State) : Host.Outcome State Fault Refusal :=
  match i with
  | .ternlogi rt ra rb tli => Sys2Proof.Machine.execTernlogi rt ra rb tli s
  | .ternlogiRc rt ra rb tli => Sys2Proof.Machine.execTernlogiRc rt ra rb tli s
  | .crternlogi bf bfa bfb tli msk => Sys2Proof.Machine.execCrternlogi bf bfa bfb tli msk s
  | .binlog rt ra rb rc nh => Sys2Proof.Machine.execBinlog rt ra rb rc nh s
  | .crbinlog bf bfa bfb msk rsv => Sys2Proof.Machine.execCrbinlog bf bfa bfb msk rsv s

end Sys2Proof.Machine
end

