-- ==== Sys2Proof/Machine/Fetch.lean ====
section
/-! DEFINITION. Instruction storage: the text region, fetching a word, one byte of it, and loading it (20_memory.md). -/

namespace Sys2Proof.Machine

/-- A configuration with another program text at another TEXT_BASE (20 R41). The constraint R41 puts on the two is not
tested here (DESIGN CHOICE, unsafe, log 30). -/
def withText (c : Config) (base : Dword) (text : List Word) : Config :=
  { c with textBase := base, text := text }

/-- What stands at the pc (20 R41). -/
inductive Fetch
  /-- the word `text[k]`, when `pc = TEXT_BASE + 4*k` with `k < L` -/
  | word (w : Word)
  /-- `pc = TEXT_BASE + 4*L`: the run has ended -/
  | ended
  /-- any other address: nothing exists there -/
  | outside
  deriving DecidableEq, Repr

/-- How far an address lies above TEXT_BASE, in bytes modulo 2^64. -/
def textOffset (c : Config) (a : Dword) : Nat :=
  (a - c.textBase).toNat

/-- The word at the pc (20 R41). With a TEXT_BASE that is no multiple of 4, or a text that runs past 2^64, which R41
excludes and of which the spec says nothing more, word `k` is fetched at `(TEXT_BASE + 4*k) mod 2^64` all the same
(DESIGN CHOICE, unsafe, log 30). -/
def State.fetch (s : State) : Fetch :=
  if textOffset s.config s.pc % 4 = 0 then
    match s.config.text[textOffset s.config s.pc / 4]? with
    | some w => .word w
    | none => if textOffset s.config s.pc / 4 = s.config.text.length then .ended else .outside
  else .outside

/-- One byte of the address space: a byte of the text region, and nothing anywhere else (20 R42, R44, R49). -/
def State.readByte (s : State) (a : Dword) : Option Byte :=
  (s.config.text[textOffset s.config a / 4]?).map fun w =>
    byteOfWord s.config.insnByteOrder w (textOffset s.config a % 4)

/-- The words of a byte image; none if the image is not whole words (20 R42). -/
def wordsOfBytes (order : ByteOrder) : List Byte → Option (List Word)
  | [] => some []
  | b0 :: b1 :: b2 :: b3 :: rest =>
    (wordsOfBytes order rest).map (wordOfBytes order b0 b1 b2 b3 :: ·)
  | _ => none

/-- Loading a program from outside, before a run: the words of the image become the text at `base`, and
the pc is TEXT_BASE (20 R41, R42, 10 R33; log 20). None if the image is not whole words. A `base` or a length that
R41 excludes is loaded too, untested: the spec is silent (DESIGN CHOICE, unsafe, log 30). -/
def State.loadBytes (s : State) (base : Dword) (image : List Byte) : Option State :=
  (wordsOfBytes s.config.insnByteOrder image).map fun ws =>
    { s with pc := base, config := withText s.config base ws }

/-- `s` with the word `w` standing at its pc: in place of the text's word there, appended when the pc is at
the end of the text, and as a text of its own at the pc otherwise (log 20). That the TEXT_BASE and length it leaves
keep the constraint of R41 is not tested: the spec is silent (DESIGN CHOICE, unsafe, log 30). -/
def State.placeWord (s : State) (w : Word) : State :=
  if textOffset s.config s.pc % 4 = 0 ∧ textOffset s.config s.pc / 4 < s.config.text.length then
    { s with config := withText s.config s.config.textBase (s.config.text.set (textOffset s.config s.pc / 4) w) }
  else if textOffset s.config s.pc % 4 = 0 ∧ textOffset s.config s.pc / 4 = s.config.text.length then
    { s with config := withText s.config s.config.textBase (s.config.text ++ [w]) }
  else
    { s with config := withText s.config s.pc [w] }

end Sys2Proof.Machine
end

