-- ==== Sys2Proof/Machine/Step.lean ====
section
/-! DEFINITION. One step: fetch the word at the pc, decode it, run it. -/

namespace Sys2Proof.Machine

/-- The step of a word that was fetched (30 R56). -/
def stepWord (w : Word) (s : State) : Host.Outcome State Fault Refusal :=
  match decode s.config.opcodes w with
  | .instr i => exec i s
  | .rejected .wordOutsideSpec => .refused (.wordOutsideSpec w)
  | .rejected .ambiguousOpcode => .refused (.ambiguousOpcode w)

/-- One step of the machine (10 R34, 20 R41, 70 R145). -/
def step (s : State) : Host.Outcome State Fault Refusal :=
  match s.fetch with
  | .word w => stepWord w s
  | .ended => .refused .endOfText
  | .outside => .fault (.fetchOutsideText s.pc)

/-- `s` with the instruction whose bits are `w` (bit 0 least significant, bits above `nbits` zero) standing
where `step` fetches next. -/
def State.withFetchWord (s : State) (nbits w : Nat) : State :=
  s.placeWord (BitVec.ofNat 32 (w % 2 ^ nbits))

end Sys2Proof.Machine
end

