-- ==== Sys2Proof/WellFormed.lean ====
section
/-! DEFINITION. Which instructions are legal: the checks the operand widths do not already make. -/

namespace Sys2Proof

/-- 30 R56: every value of every operand field is legal but `msk = 0` (30 R66), and an assembled
`crbinlog` has its reserved bits 0 (30 R67). -/
def Instr.wellFormed : Instr → Bool
  | .ternlogi _ _ _ _ => true
  | .ternlogiRc _ _ _ _ => true
  | .crternlogi _ _ _ _ msk => msk != 0#4
  | .binlog _ _ _ _ _ => true
  | .crbinlog _ _ _ msk rsv => msk != 0#4 && rsv == 0#8

end Sys2Proof
end

