-- ==== Sys2Proof/Machine/Assembly.lean ====
section
/-! DEFINITION. The assembler's operands: one line of 30 R71 to R75 to an instruction, with its range checks. -/

namespace Sys2Proof

/-- An operand as written: `r3`, or a number in any radix (30 R75). -/
inductive AsmOperand
  | reg (n : Nat)
  | num (n : Nat)
  deriving DecidableEq, Repr

/-- Why a line is not assembled. -/
inductive AsmError
  /-- not the operands the mnemonic's syntax line lists (30 R71 to R74) -/
  | operandKind
  /-- "An operand out of range is an assembly error" (30 R75) -/
  | operandOutOfRange
  /-- "An assembler should reject msk = 0" (30 R72); `msk` is a number 1..15 (30 R75) -/
  | maskZero
  deriving DecidableEq, Repr

/-- What the assembler answers. -/
inductive AsmResult
  | instr (i : Instr)
  | error (why : AsmError)
  deriving DecidableEq, Repr

/-- The two `ternlogi` lines: GPR numbers 0..31, TLI 0..255 (30 R71, R75). -/
def asmTernary (make : GprNum → GprNum → GprNum → Table8 → Instr) (rt ra rb tli : Nat) : AsmResult :=
  if rt < 32 ∧ ra < 32 ∧ rb < 32 ∧ tli < 256 then
    .instr (make (BitVec.ofNat 5 rt) (BitVec.ofNat 5 ra) (BitVec.ofNat 5 rb) (BitVec.ofNat 8 tli))
  else .error .operandOutOfRange

/-- `crternlogi BF, BFA, BFB, TLI, msk` (30 R72, R75). -/
def asmCrternlogi (bf bfa bfb tli msk : Nat) : AsmResult :=
  if bf < 8 ∧ bfa < 8 ∧ bfb < 8 ∧ tli < 256 ∧ msk < 16 then
    if msk = 0 then .error .maskZero
    else
      .instr (.crternlogi (BitVec.ofNat 3 bf) (BitVec.ofNat 3 bfa) (BitVec.ofNat 3 bfb) (BitVec.ofNat 8 tli)
        (BitVec.ofNat 4 msk))
  else .error .operandOutOfRange

/-- `binlog RT, RA, RB, RC, nh` (30 R73, R75). -/
def asmBinlog (rt ra rb rc nh : Nat) : AsmResult :=
  if rt < 32 ∧ ra < 32 ∧ rb < 32 ∧ rc < 32 ∧ nh < 2 then
    .instr (.binlog (BitVec.ofNat 5 rt) (BitVec.ofNat 5 ra) (BitVec.ofNat 5 rb) (BitVec.ofNat 5 rc) (nh == 1))
  else .error .operandOutOfRange

/-- `crbinlog BF, BFA, BFB, msk`, the reserved bits 0 (30 R74, R75). -/
def asmCrbinlog (bf bfa bfb msk : Nat) : AsmResult :=
  if bf < 8 ∧ bfa < 8 ∧ bfb < 8 ∧ msk < 16 then
    if msk = 0 then .error .maskZero
    else .instr (.crbinlog (BitVec.ofNat 3 bf) (BitVec.ofNat 3 bfa) (BitVec.ofNat 3 bfb) (BitVec.ofNat 4 msk) 0#8)
  else .error .operandOutOfRange

/-- One line, a mnemonic and its operands in the order of its syntax line (30 R71 to R74; log 24). -/
def assemble : Mnemonic → List AsmOperand → AsmResult
  | .ternlogi, [.reg rt, .reg ra, .reg rb, .num tli] => asmTernary .ternlogi rt ra rb tli
  | .ternlogiRc, [.reg rt, .reg ra, .reg rb, .num tli] => asmTernary .ternlogiRc rt ra rb tli
  | .crternlogi, [.num bf, .num bfa, .num bfb, .num tli, .num msk] => asmCrternlogi bf bfa bfb tli msk
  | .binlog, [.reg rt, .reg ra, .reg rb, .reg rc, .num nh] => asmBinlog rt ra rb rc nh
  | .crbinlog, [.num bf, .num bfa, .num bfb, .num msk] => asmCrbinlog bf bfa bfb msk
  | _, _ => .error .operandKind

/-- The operands an instruction is written with (30 R71 to R75). -/
def Instr.operands : Instr → List AsmOperand
  | .ternlogi rt ra rb tli => [.reg rt.toNat, .reg ra.toNat, .reg rb.toNat, .num tli.toNat]
  | .ternlogiRc rt ra rb tli => [.reg rt.toNat, .reg ra.toNat, .reg rb.toNat, .num tli.toNat]
  | .crternlogi bf bfa bfb tli msk =>
    [.num bf.toNat, .num bfa.toNat, .num bfb.toNat, .num tli.toNat, .num msk.toNat]
  | .binlog rt ra rb rc nh => [.reg rt.toNat, .reg ra.toNat, .reg rb.toNat, .reg rc.toNat, .num nh.toNat]
  | .crbinlog bf bfa bfb msk _ => [.num bf.toNat, .num bfa.toNat, .num bfb.toNat, .num msk.toNat]

end Sys2Proof
end

