-- ==== Sys2Proof/Machine/Program.lean ====
section
/-! DEFINITION. Steps in a row, and the run of a whole program with its three answers (70_reset_and_hazards.md). -/

namespace Sys2Proof.Machine

/-- `k` steps in a row, if none of them faults or is refused. This is stepping alone: it looks at no word before it
is fetched, and the run of a program is `runProgram` (log 31). -/
def run : Nat → State → Host.Outcome State Fault Refusal
  | 0, s => .next s
  | k + 1, s =>
    match step s with
    | .next t => run k t
    | .fault f => .fault f
    | .refused r => .refused r

/-- Whether an instruction is refused: `crbinlog` with a reserved bit set under `RESERVED_NONZERO = refuse`
(30 R67), unless its `msk` is 0, which is the fault that is tested first (60 R123). -/
def refusedInstr (policy : ReservedPolicy) : Instr → Bool
  | .ternlogi _ _ _ _ => false
  | .ternlogiRc _ _ _ _ => false
  | .crternlogi _ _ _ _ _ => false
  | .binlog _ _ _ _ _ => false
  | .crbinlog _ _ _ msk rsv => msk != 0#4 && rsv != 0#8 && policy == .refuse

/-- The refusal of a word, told from the word and the configuration alone: it selects no row (30 R68), more than one
(log 22), or is a refused `crbinlog` word (30 R67). -/
def refusalOfWord (c : Config) (w : Word) : Option Refusal :=
  match decode c.opcodes w with
  | .instr i => if refusedInstr c.reservedNonzero i then some (.reservedBitsSet w) else none
  | .rejected .wordOutsideSpec => some (.wordOutsideSpec w)
  | .rejected .ambiguousOpcode => some (.ambiguousOpcode w)

/-- The refusal of a program, that of the first word of its text which is refused, wherever it stands
(70 R145: "makes the whole program refused"). -/
def programRefusal (c : Config) : Option Refusal :=
  c.text.findSome? (refusalOfWord c)

/-- What becomes of a program (70 R145). -/
inductive ProgramEnd
  /-- (a) the last word of the text has completed; `final` is the state at that moment -/
  | normalEnd (final : State)
  /-- (b) the first faulting word's fault; the state is not final -/
  | faulted (f : Fault)
  /-- a word of the text is refused, or (log 31) the run did not start at TEXT_BASE: neither a normal end nor a
  fault -/
  | refused (r : Refusal)
  deriving DecidableEq, Repr

/-- The run of the program in `s.config.text` from a launch state `s` (`pc = TEXT_BASE`, 10 R33): refused as a whole
if any of its words is; otherwise its `L` words once each in order, "after exactly `L` steps or at its first faulting
word" (70 R145). Which refused word names the refusal is the model's choice (log 31). -/
def runProgram (s : State) : ProgramEnd :=
  match programRefusal s.config with
  | some r => .refused r
  | none =>
    match run s.config.text.length s with
    | .next t => .normalEnd t
    | .fault f => .faulted f
    | .refused r => .refused r

end Sys2Proof.Machine
end

