-- ==== Sys2Proof/Safety.lean ====
section
/-! DEFINITION. What counts as a safe run, and the read and write sets of the instructions. -/

namespace Sys2Proof.Machine

/-- The constraints the spec puts on a configuration: `TEXT_BASE` a multiple of 4 and
`TEXT_BASE + 4*L <= 2^64` (20 R41), and opcode numbers that make selection a function (30 R65). Nothing in the
machine tests the first two (log 30): statements that need them take this as a premise. -/
def lawfulConfig (c : Config) : Prop :=
  c.textBase.toNat % 4 = 0 ∧ c.textBase.toNat + 4 * c.text.length ≤ 2 ^ 64 ∧ c.opcodes.valid = true

/-- The invariant of a run: a lawful configuration, and a pc at a word of the text or at its end
("no other value of pc is reachable", 20 R41). -/
def State.inv (s : State) : Prop :=
  lawfulConfig s.config ∧ ∃ k, k ≤ s.config.text.length ∧ s.pc = s.config.textBase + BitVec.ofNat 64 (4 * k)

/-- The normal end of a run: the pc has reached `TEXT_BASE + 4*L` (70 R145). -/
def State.ended (s : State) : Prop :=
  s.fetch = .ended

/-- Whether an instruction neither traps nor is refused: `msk` is not 0 (30 R66), and no reserved bit is set
unless they are ignored (30 R67). -/
def completes (policy : ReservedPolicy) : Instr → Bool
  | .ternlogi _ _ _ _ => true
  | .ternlogiRc _ _ _ _ => true
  | .crternlogi _ _ _ _ msk => msk != 0#4
  | .binlog _ _ _ _ _ => true
  | .crbinlog _ _ _ msk rsv => msk != 0#4 && (rsv == 0#8 || policy == .ignore)

/-- A word that decodes to an instruction which completes (30 R56). -/
def runnableWord (c : Config) (w : Word) : Prop :=
  ∃ i, decode c.opcodes w = .instr i ∧ completes c.reservedNonzero i = true

/-- A word that decodes to an instruction which traps (30 R66). -/
def trappingWord (c : Config) (w : Word) : Prop :=
  (∃ bf bfa bfb tli, decode c.opcodes w = .instr (.crternlogi bf bfa bfb tli 0#4)) ∨
  (∃ bf bfa bfb rsv, decode c.opcodes w = .instr (.crbinlog bf bfa bfb 0#4 rsv))

/-- A word the model refuses (70 R145): it selects no row (30 R68), or is a `crbinlog` word with a reserved bit set
under `RESERVED_NONZERO = refuse` (30 R67) whose `msk` is not 0 (60 R123: the fault is tested first). -/
def refusedWord (c : Config) (w : Word) : Prop :=
  (∀ m, rowSelects c.opcodes w m = false) ∨
  (∃ bf bfa bfb msk rsv, decode c.opcodes w = .instr (.crbinlog bf bfa bfb msk rsv) ∧ msk ≠ 0#4 ∧ rsv ≠ 0#8 ∧
    c.reservedNonzero = .refuse)

/-- What every completing instruction leaves as it was, and the pc: SO, the configuration, every byte of the
address space, `pc <- pc + 4` (10 R28, R31, R34; 20 R47). -/
def keepsRest (s t : State) : Prop :=
  t.so = s.so ∧ t.config = s.config ∧ (∀ a, t.readByte a = s.readByte a) ∧ t.pc = s.pc + 4

/-- The GPRs an instruction reads (10 R21). -/
def gprReads : Instr → List GprNum
  | .ternlogi rt ra rb _ => [rt, ra, rb]
  | .ternlogiRc rt ra rb _ => [rt, ra, rb]
  | .crternlogi _ _ _ _ _ => []
  | .binlog _ ra rb rc _ => [ra, rb, rc]
  | .crbinlog _ _ _ _ _ => []

/-- The GPRs an instruction writes (10 R21). -/
def gprWrites : Instr → List GprNum
  | .ternlogi rt _ _ _ => [rt]
  | .ternlogiRc rt _ _ _ => [rt]
  | .crternlogi _ _ _ _ _ => []
  | .binlog rt _ _ _ _ => [rt]
  | .crbinlog _ _ _ _ _ => []

/-- The CR Fields an instruction reads (10 R27). -/
def crReads : Instr → List CrNum
  | .ternlogi _ _ _ _ => []
  | .ternlogiRc _ _ _ _ => []
  | .crternlogi bf bfa bfb _ _ => [bf, bfa, bfb]
  | .binlog _ _ _ _ _ => []
  | .crbinlog bf bfa bfb _ _ => [bf, bfa, bfb]

/-- Whether an instruction writes CR bit `k`, 32 to 63 (10 R27). -/
def crWrites (k : Nat) : Instr → Bool
  | .ternlogi _ _ _ _ => false
  | .ternlogiRc _ _ _ _ => 32 ≤ k && k ≤ 35
  | .crternlogi bf _ _ _ msk => 4 * bf.toNat + 32 ≤ k && k ≤ 4 * bf.toNat + 35 && msk.getMsbD (k - (4 * bf.toNat + 32))
  | .binlog _ _ _ _ _ => false
  | .crbinlog bf _ _ msk _ => 4 * bf.toNat + 32 ≤ k && k ≤ 4 * bf.toNat + 35 && msk.getMsbD (k - (4 * bf.toNat + 32))

end Sys2Proof.Machine
end

