-- ==== Sys2Proof/Certificates/Slice0/Obligations.lean ====
section
/-! DEFINITION. The statements for the provers, from the numbered rules of spec/. -/

open Sys2Proof Sys2Proof.Machine

namespace Sys2Proof.Machine

/-- `b` is element `j` of a table, whichever `LUT_INDEX_ORDER` holds (00 R10, R18). -/
def isElement {n : Nat} (order : LutOrder) (tbl : BitVec n) (j : Nat) (b : Bool) : Prop :=
  (order = .msb0 → b = tbl.getMsbD j) ∧ (order = .lsb0 → b = tbl.getLsbD j)

/-- `j = 4*x + 2*y + z` (00 R14). -/
def index3 (x y z : Bool) : Nat := 4 * x.toNat + 2 * y.toNat + z.toNat

/-- `j = 2*x + y` (00 R14). -/
def index2 (x y : Bool) : Nat := 2 * x.toNat + y.toNat

/-- `CR[4*n+32+i]` (10 R25). -/
def fieldBit (s : State) (n : CrNum) (i : Nat) : Bool := s.crBit (4 * n.toNat + 32 + i)

/-- CR bit `k` is none of the bits of field `n` that `msk` selects (41 R85). -/
def unselected (n : CrNum) (msk : Nibble) (k : Nat) : Prop :=
  ∀ i < 4, k = 4 * n.toNat + 32 + i → msk.getMsbD i = false

end Sys2Proof.Machine

/-! ### Encoding -/

/-- 95 sections 3.1 and 3.2 (V-E3, V-E5, V-E14, V-E15, V-E1, V-E20): words written out bit by bit, under the spec's
labelled test fixture. The fixture's opcode numbers are no rule of the spec (log 4). -/
def Obligations.WordsWrittenOutBitByBitDecode : Prop :=
  decode OpcodeParams.testParams 0b010110_11111_00000_10001_10100101_00_1#32 = .instr (.ternlogiRc 31 0 17 0xA5) ∧
  decode OpcodeParams.testParams 0b010110_00011_00100_00110_00011011_00_0#32 = .instr (.ternlogi 3 4 6 0x1B) ∧
  decode OpcodeParams.testParams 0b010110_111_10_110_01_101_10_10100_00001_1#32 =
    .instr (.crternlogi 7 6 5 0xA5 0b1001) ∧
  decode OpcodeParams.testParams 0b010110_11111_00000_10001_01001_1_00110#32 = .instr (.binlog 31 0 17 9 true) ∧
  decode OpcodeParams.testParams 0b010110_111_10_110_01_101_0000000_00010_0#32 = .instr (.crbinlog 7 6 5 0b1001 0) ∧
  decode OpcodeParams.testParams 0x58000007#32 = .rejected .wordOutsideSpec

/-- 30 R65, the "selected when" column against the mask and match columns: for all opcode numbers and words. -/
def Obligations.OpcodeRowsSelectByTheirFields : Prop :=
  ∀ (p : OpcodeParams) (w : Word),
    (rowSelects p w .ternlogi = true ↔
      slice w 0 5 = p.poTernlogi ∧ slice w 29 30 = p.xoTernlogi ∧ w.getMsbD 31 = false) ∧
    (rowSelects p w .ternlogiRc = true ↔
      slice w 0 5 = p.poTernlogi ∧ slice w 29 30 = p.xoTernlogi ∧ w.getMsbD 31 = true) ∧
    (rowSelects p w .crternlogi = true ↔ slice w 0 5 = p.poCrternlogi ∧ slice w 26 30 = p.xoCrternlogi) ∧
    (rowSelects p w .binlog = true ↔ slice w 0 5 = p.poBinlog ∧ slice w 27 31 = p.xoBinlog) ∧
    (rowSelects p w .crbinlog = true ↔ slice w 0 5 = p.poCrbinlog ∧ slice w 26 30 = p.xoCrbinlog)

/-- 30 R65: under opcode numbers that keep the constraint selection is a function, and the decoder answers the
selected row's instruction, or says that no row is selected. -/
def Obligations.DecodeFollowsTheOneSelectedRow : Prop :=
  ∀ (p : OpcodeParams) (w : Word), p.valid = true →
    (∀ m m', rowSelects p w m = true → rowSelects p w m' = true → m = m') ∧
    (∀ m, rowSelects p w m = true → decode p w = .instr (decodeFields m w)) ∧
    ((∀ m, rowSelects p w m = false) → decode p w = .rejected .wordOutsideSpec)

/-- 30 R77, "Decoding by rules R57 to R63 inverts each of these exactly": for every instruction, every operand at
every value, under all opcode numbers that keep the constraint of 30 R65. -/
def Obligations.DecodeInvertsEncode : Prop :=
  ∀ (p : OpcodeParams) (i : Instr), p.valid = true → decode p (encode p i) = .instr i

/-- Every word has at most one reading: the encoding of what it decodes to is the word itself, for all opcode
numbers (30 R55: there are no unnamed bits). -/
def Obligations.EncodeInvertsDecode : Prop :=
  ∀ (p : OpcodeParams) (w : Word) (i : Instr), decode p w = .instr i → encode p i = w

/-- 30 R77, the five encoding formulas over unsigned integers. -/
def Obligations.EncodeIsTheShiftFormula : Prop :=
  ∀ (p : OpcodeParams),
    (∀ (rt ra rb : GprNum) (tli : Table8),
      (encode p (.ternlogi rt ra rb tli)).toNat =
        p.poTernlogi.toNat <<< 26 ||| rt.toNat <<< 21 ||| ra.toNat <<< 16 ||| rb.toNat <<< 11 ||| tli.toNat <<< 3 |||
          p.xoTernlogi.toNat <<< 1 ||| 0 ∧
      (encode p (.ternlogiRc rt ra rb tli)).toNat =
        p.poTernlogi.toNat <<< 26 ||| rt.toNat <<< 21 ||| ra.toNat <<< 16 ||| rb.toNat <<< 11 ||| tli.toNat <<< 3 |||
          p.xoTernlogi.toNat <<< 1 ||| 1) ∧
    (∀ (bf bfa bfb : CrNum) (tli : Table8) (msk : Nibble),
      (encode p (.crternlogi bf bfa bfb tli msk)).toNat =
        p.poCrternlogi.toNat <<< 26 ||| bf.toNat <<< 23 ||| (msk.toNat >>> 2) <<< 21 ||| bfa.toNat <<< 18 |||
          (msk.toNat &&& 3) <<< 16 ||| bfb.toNat <<< 13 ||| ((tli.toNat >>> 1) &&& 3) <<< 11 |||
          (tli.toNat >>> 3) <<< 6 ||| p.xoCrternlogi.toNat <<< 1 ||| (tli.toNat &&& 1)) ∧
    (∀ (rt ra rb rc : GprNum) (nh : Bool),
      (encode p (.binlog rt ra rb rc nh)).toNat =
        p.poBinlog.toNat <<< 26 ||| rt.toNat <<< 21 ||| ra.toNat <<< 16 ||| rb.toNat <<< 11 ||| rc.toNat <<< 6 |||
          nh.toNat <<< 5 ||| p.xoBinlog.toNat) ∧
    (∀ (bf bfa bfb : CrNum) (msk : Nibble),
      (encode p (.crbinlog bf bfa bfb msk 0#8)).toNat =
        p.poCrbinlog.toNat <<< 26 ||| bf.toNat <<< 23 ||| (msk.toNat >>> 2) <<< 21 ||| bfa.toNat <<< 18 |||
          (msk.toNat &&& 3) <<< 16 ||| bfb.toNat <<< 13 ||| p.xoCrbinlog.toNat <<< 1)

/-- 30 R60: the immediate of a word that decodes to `ternlogi` or `ternlogi.`. -/
def Obligations.TernlogiTableIsBits21To28 : Prop :=
  ∀ (p : OpcodeParams) (w : Word) (rt ra rb : GprNum) (tli : Table8),
    decode p w = .instr (.ternlogi rt ra rb tli) ∨ decode p w = .instr (.ternlogiRc rt ra rb tli) →
      tli.toNat = (w.toNat >>> 3) &&& 0xFF ∧ ∀ j < 8, tli.getMsbD j = w.getMsbD (21 + j)

/-- 30 R57 to R62: the operands of a word of each row as shifts and masks; 30 R67: the mask of the reserved bits. That
split fields are put together in the listed order is the spec's decision D18 (log 17). -/
def Obligations.OperandFieldsAsShiftsAndMasks : Prop :=
  ∀ (p : OpcodeParams) (w : Word),
    (∀ rt ra rb tli, decode p w = .instr (.ternlogi rt ra rb tli) ∨ decode p w = .instr (.ternlogiRc rt ra rb tli) →
      rt.toNat = (w.toNat >>> 21) &&& 31 ∧ ra.toNat = (w.toNat >>> 16) &&& 31 ∧ rb.toNat = (w.toNat >>> 11) &&& 31 ∧
      tli.toNat = (w.toNat >>> 3) &&& 0xFF) ∧
    (∀ bf bfa bfb tli msk, decode p w = .instr (.crternlogi bf bfa bfb tli msk) →
      bf.toNat = (w.toNat >>> 23) &&& 7 ∧ bfa.toNat = (w.toNat >>> 18) &&& 7 ∧ bfb.toNat = (w.toNat >>> 13) &&& 7 ∧
      msk.toNat = ((w.toNat >>> 21) &&& 3) <<< 2 ||| ((w.toNat >>> 16) &&& 3) ∧
      tli.toNat = ((w.toNat >>> 6) &&& 31) <<< 3 ||| ((w.toNat >>> 11) &&& 3) <<< 1 ||| (w.toNat &&& 1)) ∧
    (∀ rt ra rb rc nh, decode p w = .instr (.binlog rt ra rb rc nh) →
      rt.toNat = (w.toNat >>> 21) &&& 31 ∧ ra.toNat = (w.toNat >>> 16) &&& 31 ∧ rb.toNat = (w.toNat >>> 11) &&& 31 ∧
      rc.toNat = (w.toNat >>> 6) &&& 31 ∧ nh.toNat = (w.toNat >>> 5) &&& 1) ∧
    (∀ bf bfa bfb msk rsv, decode p w = .instr (.crbinlog bf bfa bfb msk rsv) →
      bf.toNat = (w.toNat >>> 23) &&& 7 ∧ bfa.toNat = (w.toNat >>> 18) &&& 7 ∧ bfb.toNat = (w.toNat >>> 13) &&& 7 ∧
      msk.toNat = ((w.toNat >>> 21) &&& 3) <<< 2 ||| ((w.toNat >>> 16) &&& 3) ∧
      (rsv = 0#8 ↔ w.toNat &&& 0x1FC1 = 0))

/-- 30 R71 to R75: what the assembler makes of an instruction's own operands is the instruction, exactly when it is
legal; and everything it accepts is legal. Spelling and range checks are the spec's decision D24 (log 24). -/
def Obligations.AssemblerAcceptsExactlyTheLegalInstructions : Prop :=
  (∀ i : Instr, i.wellFormed = true ↔ assemble i.mnemonic i.operands = .instr i) ∧
  (∀ m ops i, assemble m ops = .instr i → i.wellFormed = true ∧ i.mnemonic = m ∧ i.operands = ops)

/-! ### The look-ups -/

/-- 41 R80: each result bit is the element of the table that the three operand bits at its position name, for both
values of `LUT_INDEX_ORDER` (the spec's value is msb0, D2; log 2). -/
def Obligations.Lut3PicksTheNamedElementAtEachBit : Prop :=
  ∀ (n : Nat) (order : LutOrder) (tbl : Table8) (x y z : BitVec n) (i : Nat), i < n →
    isElement order tbl (index3 (x.getMsbD i) (y.getMsbD i) (z.getMsbD i)) ((lut3 order tbl x y z).getMsbD i)

/-- 42 R100, for both values of `LUT_INDEX_ORDER` (log 2). -/
def Obligations.Lut2PicksTheNamedElementAtEachBit : Prop :=
  ∀ (n : Nat) (order : LutOrder) (tbl : Nibble) (x y : BitVec n) (i : Nat), i < n →
    isElement order tbl (index2 (x.getMsbD i) (y.getMsbD i)) ((lut2 order tbl x y).getMsbD i)

/-- 41 R86: the tables it names, under msb0 (D2; log 2). -/
def Obligations.Lut3TablesNamedByTheSpec : Prop :=
  ∀ (n : Nat) (x y z : BitVec n),
    lut3 .msb0 0b00000000 x y z = 0#n ∧ lut3 .msb0 0b11111111 x y z = BitVec.allOnes n ∧
    lut3 .msb0 0b00001111 x y z = x ∧ lut3 .msb0 0b00110011 x y z = y ∧ lut3 .msb0 0b01010101 x y z = z ∧
    lut3 .msb0 0b11110000 x y z = ~~~x ∧ lut3 .msb0 0b00000001 x y z = x &&& y &&& z ∧
    lut3 .msb0 0b01111111 x y z = x ||| y ||| z ∧ lut3 .msb0 0b10000000 x y z = ~~~(x ||| y ||| z) ∧
    lut3 .msb0 0b11111110 x y z = ~~~(x &&& y &&& z) ∧ lut3 .msb0 0b01101001 x y z = x ^^^ y ^^^ z ∧
    lut3 .msb0 0b00010111 x y z = (x &&& y) ||| (x &&& z) ||| (y &&& z) ∧
    lut3 .msb0 0b00000011 x y z = x &&& y ∧ lut3 .msb0 0b00111111 x y z = x ||| y ∧
    lut3 .msb0 0b00111100 x y z = x ^^^ y ∧ lut3 .msb0 0b00011011 x y z = (x &&& ~~~z) ||| (y &&& z) ∧
    lut3 .msb0 0b01010011 x y z = (x &&& y) ||| (~~~x &&& z) ∧ lut3 .msb0 0b00001100 x y z = x &&& ~~~y

/-- 42 R103: all sixteen tables. -/
def Obligations.Lut2SixteenTables : Prop :=
  ∀ (n : Nat) (x y : BitVec n),
    lut2 .msb0 0b0000 x y = 0#n ∧ lut2 .msb0 0b0001 x y = x &&& y ∧ lut2 .msb0 0b0010 x y = x &&& ~~~y ∧
    lut2 .msb0 0b0011 x y = x ∧ lut2 .msb0 0b0100 x y = ~~~x &&& y ∧ lut2 .msb0 0b0101 x y = y ∧
    lut2 .msb0 0b0110 x y = x ^^^ y ∧ lut2 .msb0 0b0111 x y = x ||| y ∧ lut2 .msb0 0b1000 x y = ~~~(x ||| y) ∧
    lut2 .msb0 0b1001 x y = ~~~(x ^^^ y) ∧ lut2 .msb0 0b1010 x y = ~~~y ∧ lut2 .msb0 0b1011 x y = x ||| ~~~y ∧
    lut2 .msb0 0b1100 x y = ~~~x ∧ lut2 .msb0 0b1101 x y = ~~~x ||| y ∧ lut2 .msb0 0b1110 x y = ~~~(x &&& y) ∧
    lut2 .msb0 0b1111 x y = BitVec.allOnes n

/-- 90 C1, 92 D2: the two index orders are each other's bit reversal, so a palindromic table does not tell them
apart, and the printed constant `0b11011000` computes the multiplexer under lsb0 and, at every width above 0, not
under msb0 (95 section 1.1, V-L4; log 2). -/
def Obligations.IndexOrdersAreBitReversals : Prop :=
  ∀ (n : Nat) (tbl : Table8) (x y z : BitVec n),
    lut3 .lsb0 tbl x y z = lut3 .msb0 tbl.reverse x y z ∧
    (tbl.reverse = tbl → lut3 .lsb0 tbl x y z = lut3 .msb0 tbl x y z) ∧
    lut3 .lsb0 0b11011000 x y z = (x &&& ~~~z) ||| (y &&& z) ∧
    (0 < n → ∃ x' y' z' : BitVec n, lut3 .msb0 0b11011000 x' y' z' ≠ (x' &&& ~~~z') ||| (y' &&& z'))

/-- 42 R104: two dynamic binary look-ups, one per nibble of an 8-bit table, merged by the multiplexer table, make the
ternary look-up of that table (msb0, D2; log 2). -/
def Obligations.TwoBinaryLookupsMakeATernaryOne : Prop :=
  ∀ (n : Nat) (t : Table8) (a b c : BitVec n),
    lut3 .msb0 0b00011011 (lut2 .msb0 (slice t 4 7) a b) (lut2 .msb0 (slice t 0 3) a b) c =
      lut3 .msb0 t (~~~c) a b

/-! ### The instructions: result, completion, frame -/

/-- 41 R81. The old GPR[RT] is the first operand; registers may coincide in any way; GPR 0 is a register like any
other. The element of TLI is told for both index orders; that it is the msb0 one is decision D2, and lsb0 is the
reading it rejects (log 2). -/
def Obligations.TernlogiWritesTheLookupOfOldRegisters : Prop :=
  ∀ (s : State) (rt ra rb : GprNum) (tli : Table8), ∃ t,
    exec (.ternlogi rt ra rb tli) s = .next t ∧
    (∀ i < 64, isElement s.config.lutOrder tli
      (index3 ((s.readGpr rt).getMsbD i) ((s.readGpr ra).getMsbD i) ((s.readGpr rb).getMsbD i))
      ((t.readGpr rt).getMsbD i)) ∧
    (∀ r, r ≠ rt → t.readGpr r = s.readGpr r) ∧
    t.cr = s.cr ∧ keepsRest s t

/-- 41 R82. GPR[RT] as `ternlogi`; CR0 is LT, GT, EQ of the new GPR[RT] as a signed 64-bit number in 64-bit mode, of
its low 32 bits otherwise, and a copy of SO. The CR0 rule is general knowledge in the spec (R83, D8; log 8). -/
def Obligations.TernlogiRcWritesTheLookupAndRecordsCr0 : Prop :=
  ∀ (s : State) (rt ra rb : GprNum) (tli : Table8), ∃ t,
    exec (.ternlogiRc rt ra rb tli) s = .next t ∧
    (∀ i < 64, isElement s.config.lutOrder tli
      (index3 ((s.readGpr rt).getMsbD i) ((s.readGpr ra).getMsbD i) ((s.readGpr rb).getMsbD i))
      ((t.readGpr rt).getMsbD i)) ∧
    (∀ r, r ≠ rt → t.readGpr r = s.readGpr r) ∧
    (∀ v : Int,
      v = (if s.config.mode64 = true then (t.readGpr rt).toInt else (BitVec.setWidth 32 (t.readGpr rt)).toInt) →
      t.crBit 32 = decide (v < 0) ∧ t.crBit 33 = decide (v > 0) ∧ t.crBit 34 = decide (v = 0)) ∧
    t.crBit 35 = s.so ∧
    (∀ k, 36 ≤ k → k ≤ 63 → t.crBit k = s.crBit k) ∧
    keepsRest s t

/-- 41 R84. With `msk = 0` the trap; otherwise each bit of CR Field BF that `msk` selects gets the look-up of the old
bits of fields BF, BFA, BFB, and nothing else changes. The fault record with its address is decision D10 (60 R121;
log 10), and the element of TLI is told for both index orders, of which D2 rejects lsb0 (log 2). -/
def Obligations.CrternlogiWritesTheMaskedLookup : Prop :=
  ∀ (s : State) (bf bfa bfb : CrNum) (tli : Table8) (msk : Nibble),
    (msk = 0#4 → exec (.crternlogi bf bfa bfb tli msk) s =
      .fault (.illegalInstruction (encode s.config.opcodes (.crternlogi bf bfa bfb tli msk)) s.pc)) ∧
    (msk ≠ 0#4 → ∃ t,
      exec (.crternlogi bf bfa bfb tli msk) s = .next t ∧
      (∀ i < 4, msk.getMsbD i = true →
        isElement s.config.lutOrder tli (index3 (fieldBit s bf i) (fieldBit s bfa i) (fieldBit s bfb i))
          (fieldBit t bf i)) ∧
      (∀ k, 32 ≤ k → k ≤ 63 → unselected bf msk k → t.crBit k = s.crBit k) ∧
      (∀ r, t.readGpr r = s.readGpr r) ∧ keepsRest s t)

/-- 42 R101 and 30 R62. The table is bits 56:59 of GPR[RC] when `nh` is 1, else bits 60:63; GPR[RT] is written whole
and not read. A table taken from a register is read msb0 under both values of `LUT_INDEX_ORDER`: the model's choice of
D2 against the last sentence of R100 (log 2). -/
def Obligations.BinlogWritesTheLookupOfARegisterTable : Prop :=
  ∀ (s : State) (rt ra rb rc : GprNum) (nh : Bool), ∃ t,
    exec (.binlog rt ra rb rc nh) s = .next t ∧
    (∀ i < 64, (t.readGpr rt).getMsbD i =
      (s.readGpr rc).getMsbD
        ((if nh then 56 else 60) + index2 ((s.readGpr ra).getMsbD i) ((s.readGpr rb).getMsbD i))) ∧
    (∀ r, r ≠ rt → t.readGpr r = s.readGpr r) ∧
    t.cr = s.cr ∧ keepsRest s t

/-- 42 R102. With `msk = 0` the trap; otherwise each bit of CR Field BF that `msk` selects gets the bit of CR Field
BFB that the old bits of fields BF and BFA name, and nothing else changes. The fault record with its address is
decision D10 (60 R121; log 10), and a table taken from a CR Field is read msb0 under both values of `LUT_INDEX_ORDER`:
the model's choice of D2 against the last sentence of R100 (log 2). -/
def Obligations.CrbinlogWritesTheMaskedLookup : Prop :=
  ∀ (s : State) (bf bfa bfb : CrNum) (msk : Nibble),
    (msk = 0#4 → exec (.crbinlog bf bfa bfb msk 0#8) s =
      .fault (.illegalInstruction (encode s.config.opcodes (.crbinlog bf bfa bfb msk 0#8)) s.pc)) ∧
    (msk ≠ 0#4 → ∃ t,
      exec (.crbinlog bf bfa bfb msk 0#8) s = .next t ∧
      (∀ i < 4, msk.getMsbD i = true →
        fieldBit t bf i = fieldBit s bfb (index2 (fieldBit s bf i) (fieldBit s bfa i))) ∧
      (∀ k, 32 ≤ k → k ≤ 63 → unselected bf msk k → t.crBit k = s.crBit k) ∧
      (∀ r, t.readGpr r = s.readGpr r) ∧ keepsRest s t)

/-- 30 R67: a `crbinlog` word with a reserved bit set is refused under `refuse`, and runs as if the bits were 0 under
`ignore`; the spec's value `refuse` is its decision D4 (log 5). With `msk = 0` it traps under both (60 R123, D23). -/
def Obligations.CrbinlogReservedBitsFollowThePolicy : Prop :=
  ∀ (s : State) (bf bfa bfb : CrNum) (msk : Nibble) (rsv : BitVec 8), rsv ≠ 0#8 →
    (msk ≠ 0#4 → s.config.reservedNonzero = .refuse →
      exec (.crbinlog bf bfa bfb msk rsv) s =
        .refused (.reservedBitsSet (encode s.config.opcodes (.crbinlog bf bfa bfb msk rsv)))) ∧
    (msk ≠ 0#4 → s.config.reservedNonzero = .ignore → ∃ t,
      exec (.crbinlog bf bfa bfb msk rsv) s = .next t ∧ exec (.crbinlog bf bfa bfb msk 0#8) s = .next t) ∧
    (msk = 0#4 → exec (.crbinlog bf bfa bfb msk rsv) s =
      .fault (.illegalInstruction (encode s.config.opcodes (.crbinlog bf bfa bfb msk rsv)) s.pc))

/-- 41 R85, as an operation on the state: the bits of field BF that `msk` selects get those of the value, all other CR
bits and everything else are unchanged. -/
def Obligations.MaskedCrWriteChangesTheSelectedBits : Prop :=
  ∀ (s : State) (bf : CrNum) (val msk : Nibble),
    (∀ i < 4, fieldBit (s.writeCrMasked bf val msk) bf i =
      if msk.getMsbD i = true then val.getMsbD i else fieldBit s bf i) ∧
    (∀ k, 32 ≤ k → k ≤ 63 → (k < 4 * bf.toNat + 32 ∨ 4 * bf.toNat + 35 < k) →
      (s.writeCrMasked bf val msk).crBit k = s.crBit k) ∧
    (s.writeCrMasked bf val msk).gpr = s.gpr ∧ (s.writeCrMasked bf val msk).so = s.so ∧
    (s.writeCrMasked bf val msk).pc = s.pc ∧ (s.writeCrMasked bf val msk).config = s.config

/-- 41 R82 corner (b) and R83: CR0 after `ternlogi.` takes one of three values for each SO (log 8). -/
def Obligations.RecordedCr0HasExactlyOneOfLtGtEq : Prop :=
  ∀ (s t : State) (rt ra rb : GprNum) (tli : Table8), exec (.ternlogiRc rt ra rb tli) s = .next t →
    (s.so = false → t.readCrField 0#3 = 0b1000 ∨ t.readCrField 0#3 = 0b0100 ∨ t.readCrField 0#3 = 0b0010) ∧
    (s.so = true → t.readCrField 0#3 = 0b1001 ∨ t.readCrField 0#3 = 0b0101 ∨ t.readCrField 0#3 = 0b0011)

/-- 30 R76, 41 R87: the in-scope copies, under msb0 (D2; log 2): table `0b00110011` returns the second operand. -/
def Obligations.Table33CopiesTheSecondOperand : Prop :=
  ∀ (s : State), s.config.lutOrder = .msb0 →
    (∀ rt ra rb, ∃ t, exec (.ternlogi rt ra rb 0b00110011) s = .next t ∧ t.readGpr rt = s.readGpr ra) ∧
    (∀ bf bfa bfb, ∃ t, exec (.crternlogi bf bfa bfb 0b00110011 0b1111) s = .next t ∧
      t.readCrField bf = s.readCrField bfa)

/-! ### Traps -/

/-- 60 R120: the Illegal Instruction trap is raised by `crternlogi` and `crbinlog` when bits 9, 10, 14 and 15 of the
word are all zero, whatever the registers hold, and by nothing else. -/
def Obligations.TrapExactlyWhenTheMaskBitsAreZero : Prop :=
  ∀ (s : State) (w : Word) (i : Instr), decode s.config.opcodes w = .instr i →
    ((∃ f, exec i s = .fault f) ↔
      (i.mnemonic = .crternlogi ∨ i.mnemonic = .crbinlog) ∧
        w.getMsbD 9 = false ∧ w.getMsbD 10 = false ∧ w.getMsbD 14 = false ∧ w.getMsbD 15 = false) ∧
    (∀ f, exec i s = .fault f → ∃ w' a, f = .illegalInstruction w' a)

/-- 60 R121, R123: a step that traps records the word at the pc and its address; the `msk` test precedes that of the
reserved bits (D10, D23: the spec's own decisions; log 10, log 23). -/
def Obligations.TrapRecordsTheWordAndItsAddress : Prop :=
  ∀ (s : State) (w : Word), s.fetch = .word w → trappingWord s.config w →
    step s = .fault (.illegalInstruction w s.pc)

/-! ### What each instruction reads and writes -/

/-- 10 R21: the GPRs an instruction does not write keep their values; what it writes depends on no GPR but those it
reads; and GPR[RT] is written whole: each of its 64 bits is the look-up's, whatever it was. Which element the look-up
picks is told for both index orders, and for `binlog` msb0 (D2: the spec's own decision; log 2). -/
def Obligations.GprAccessByInstruction : Prop :=
  ∀ (i : Instr) (s t : State), exec i s = .next t →
    (∀ r, r ∉ gprWrites i → t.readGpr r = s.readGpr r) ∧
    (∀ s' : State, s'.cr = s.cr → s'.so = s.so → s'.pc = s.pc → s'.config = s.config →
      (∀ r ∈ gprReads i, s'.readGpr r = s.readGpr r) →
      ∃ t', exec i s' = .next t' ∧ (∀ r ∈ gprWrites i, t'.readGpr r = t.readGpr r) ∧ t'.cr = t.cr) ∧
    (∀ rt ra rb tli, i = .ternlogi rt ra rb tli ∨ i = .ternlogiRc rt ra rb tli → ∀ k < 64,
      isElement s.config.lutOrder tli
        (index3 ((s.readGpr rt).getMsbD k) ((s.readGpr ra).getMsbD k) ((s.readGpr rb).getMsbD k))
        ((t.readGpr rt).getMsbD k)) ∧
    (∀ rt ra rb rc nh, i = .binlog rt ra rb rc nh → ∀ k < 64,
      (t.readGpr rt).getMsbD k = (s.readGpr rc).getMsbD
        ((if nh then 56 else 60) + index2 ((s.readGpr ra).getMsbD k) ((s.readGpr rb).getMsbD k)))

/-- 10 R27: the CR bits an instruction does not write keep their values; what it writes depends on no CR Field but
those it reads, so `ternlogi.`, which reads none, writes all of CR Field 0; and each bit of BF that `msk` selects is
written with the look-up's bit. Which element the look-up picks is told for both index orders, and for `crbinlog` msb0
(D2: the spec's own decision; log 2). -/
def Obligations.CrAccessByInstruction : Prop :=
  ∀ (i : Instr) (s t : State), exec i s = .next t →
    (∀ k, 32 ≤ k → k ≤ 63 → crWrites k i = false → t.crBit k = s.crBit k) ∧
    (∀ s' : State, (∀ r, s'.readGpr r = s.readGpr r) → s'.so = s.so → s'.pc = s.pc → s'.config = s.config →
      (∀ n ∈ crReads i, s'.readCrField n = s.readCrField n) →
      ∃ t', exec i s' = .next t' ∧ (∀ r, t'.readGpr r = t.readGpr r) ∧ t'.pc = t.pc ∧
        (∀ k, 32 ≤ k → k ≤ 63 → crWrites k i = true → t'.crBit k = t.crBit k)) ∧
    (∀ bf bfa bfb tli msk, i = .crternlogi bf bfa bfb tli msk → ∀ k < 4, msk.getMsbD k = true →
      isElement s.config.lutOrder tli (index3 (fieldBit s bf k) (fieldBit s bfa k) (fieldBit s bfb k))
        (fieldBit t bf k)) ∧
    (∀ bf bfa bfb msk rsv, i = .crbinlog bf bfa bfb msk rsv → ∀ k < 4, msk.getMsbD k = true →
      fieldBit t bf k = fieldBit s bfb (index2 (fieldBit s bf k) (fieldBit s bfa k)))

/-- 92 D7: 64-bit or 32-bit mode affects only the CR0 value of `ternlogi.`: two states that agree but for the mode
(and the pc, text and opcode numbers) get the same registers from every other instruction (log 7). -/
def Obligations.ModeAffectsOnlyTheRecordedCr0 : Prop :=
  ∀ (i : Instr) (s t s' : State), exec i s = .next t →
    s'.gpr = s.gpr → s'.cr = s.cr → s'.so = s.so → s'.config.lutOrder = s.config.lutOrder →
    s'.config.reservedNonzero = s.config.reservedNonzero →
    ∃ t', exec i s' = .next t' ∧ t'.gpr = t.gpr ∧ t'.so = t.so ∧
      (∀ k, 36 ≤ k → k ≤ 63 → t'.crBit k = t.crBit k) ∧
      (i.mnemonic ≠ .ternlogiRc → t'.cr = t.cr)

/-- 10 R30, 20 R41, R42: no instruction reads the pc, the text, TEXT_BASE or the byte order: two states that agree on
GPRs, CR, SO and the three deciding parameters go on to states that agree on them (D6, D11; log 11). -/
def Obligations.ExecutionIsPositionIndependent : Prop :=
  ∀ (i : Instr) (s t s' : State), exec i s = .next t →
    s'.gpr = s.gpr → s'.cr = s.cr → s'.so = s.so → s'.config.lutOrder = s.config.lutOrder →
    s'.config.reservedNonzero = s.config.reservedNonzero → s'.config.mode64 = s.config.mode64 →
    ∃ t', exec i s' = .next t' ∧ t'.gpr = t.gpr ∧ t'.cr = t.cr ∧ t'.so = t.so ∧ t'.config = s'.config ∧
      t'.pc = s'.pc + 4

/-! ### The step and the run -/

/-- A step runs the decoded instruction, and adds nothing around `exec` (30 R56, 20 R41). -/
def Obligations.StepRunsTheDecodedInstruction : Prop :=
  ∀ (s : State) (w : Word) (i : Instr), s.fetch = .word w → decode s.config.opcodes w = .instr i →
    step s = exec i s

/-- 30 R68: a word that selects no row is refused, neither executed nor a trap (D5: the spec's own decision; log 6). -/
def Obligations.ForeignWordIsRefused : Prop :=
  ∀ (s : State) (w : Word), s.fetch = .word w → (∀ m, rowSelects s.config.opcodes w m = false) →
    step s = .refused (.wordOutsideSpec w)

/-- 20 R41: word `k` is fetched at `TEXT_BASE + 4*k`, the run has ended at `TEXT_BASE + 4*L`, and nothing stands at
any other address (D11, D21: the spec's own decisions; log 11, log 19, log 21). -/
def Obligations.FetchReadsTheTextAndNothingElse : Prop :=
  ∀ (s : State), lawfulConfig s.config →
    (∀ k w, s.config.text[k]? = some w → s.pc = s.config.textBase + BitVec.ofNat 64 (4 * k) → s.fetch = .word w) ∧
    (4 * s.config.text.length < 2 ^ 64 →
      s.pc = s.config.textBase + BitVec.ofNat 64 (4 * s.config.text.length) → step s = .refused .endOfText) ∧
    ((∀ k, k ≤ s.config.text.length → s.pc ≠ s.config.textBase + BitVec.ofNat 64 (4 * k)) →
      step s = .fault (.fetchOutsideText s.pc))

/-- 10 R28, R31, 20 R47: a step that goes on leaves SO, the configuration, the text and every byte of it as they were
and advances the pc by 4 modulo 2^64 (D6, D13: the spec's own decisions; log 3, log 11). -/
def Obligations.StepKeepsSoTextAndConfiguration : Prop :=
  ∀ (s t : State), step s = .next t →
    keepsRest s t ∧ t.config.text = s.config.text ∧ t.pc.toNat = (s.pc.toNat + 4) % 2 ^ 64

/-- The invariant of a run is kept by every step: the configuration stays lawful and the pc stands at a word of the
text or at its end, a multiple of 4 above TEXT_BASE (10 R30, 20 R41, R43; D6, D11). -/
def Obligations.StepKeepsTheRunInvariant : Prop :=
  ∀ (s t : State), s.inv → step s = .next t → t.inv ∧ t.pc.toNat % 4 = 0

/-- The launch state has the invariant. Its opcode numbers and TEXT_BASE are the model's choice (log 4, log 12). -/
def Obligations.ResetHasTheRunInvariant : Prop :=
  State.reset.inv

/-- 10 R33, 70 R141: what the spec gives of the launch state: `pc = TEXT_BASE`, 64-bit mode, and the parameter values
msb0 and refuse (D2, D4, D7, D14: the spec's own decisions). -/
def Obligations.ResetStandsAtTextBaseInTheSpecsModes : Prop :=
  State.reset.pc = State.reset.config.textBase ∧ State.reset.config.mode64 = true ∧
    State.reset.config.lutOrder = .msb0 ∧ State.reset.config.reservedNonzero = .refuse

/-- 70 R145 (a): a text whose words all complete is run once each in order, and the run of the program is then at its
normal end, with that state as its final state (D21: the spec's own decision; log 19). -/
def Obligations.StraightLineTextRunsToItsEnd : Prop :=
  ∀ (s : State), lawfulConfig s.config → s.pc = s.config.textBase →
    (∀ w ∈ s.config.text, runnableWord s.config w) →
    ∃ t, run s.config.text.length s = .next t ∧
      t.pc = s.config.textBase + BitVec.ofNat 64 (4 * s.config.text.length) ∧ t.config = s.config ∧
      runProgram s = .normalEnd t ∧
      (4 * s.config.text.length < 2 ^ 64 → step t = .refused .endOfText)

/-- 70 R145 (b), 60 R121: stepping reaches the first trapping word and stops there with that word and its address, and
no further instruction executes; and that fault is the end of the program, unless one of its words is refused, which
`ProgramEndsAsItsWordsSay` is about (D10, D21: the spec's own decisions; log 10, log 31). -/
def Obligations.RunStopsAtTheFirstTrappingWord : Prop :=
  ∀ (s : State) (k : Nat) (w : Word), lawfulConfig s.config → s.pc = s.config.textBase →
    s.config.text[k]? = some w → trappingWord s.config w →
    (∀ j < k, ∀ v, s.config.text[j]? = some v → runnableWord s.config v) →
    (∃ t, run k s = .next t ∧ t.pc = s.config.textBase + BitVec.ofNat 64 (4 * k)) ∧
    (∀ n, k < n → run n s =
      .fault (.illegalInstruction w (s.config.textBase + BitVec.ofNat 64 (4 * k)))) ∧
    (programRefusal s.config = none → runProgram s =
      .faulted (.illegalInstruction w (s.config.textBase + BitVec.ofNat 64 (4 * k))))

/-- 70 R145: what becomes of a program is told by what its text holds. It ends normally exactly when every word
completes, in a fault exactly when a word traps and none is refused, and is refused as a whole exactly when any word is
refused, be it after a word that traps (D21: the spec's own decision; log 31). -/
def Obligations.ProgramEndsAsItsWordsSay : Prop :=
  ∀ (s : State), lawfulConfig s.config → s.pc = s.config.textBase →
    ((∃ t, runProgram s = .normalEnd t) ↔ ∀ w ∈ s.config.text, runnableWord s.config w) ∧
    ((∃ f, runProgram s = .faulted f) ↔
      (∃ w ∈ s.config.text, trappingWord s.config w) ∧ ∀ w ∈ s.config.text, ¬ refusedWord s.config w) ∧
    ((∃ r, runProgram s = .refused r) ↔ ∃ w ∈ s.config.text, refusedWord s.config w)

/-- 30 R67, R68, 70 R145: the refusal that the whole-text test tells of a word, from the word and the configuration
alone, is the refusal of the step that reaches the word, for all opcode numbers (log 6, log 5, log 22, log 31). -/
def Obligations.TextTestTellsTheStepsRefusal : Prop :=
  ∀ (s : State) (w : Word) (r : Refusal), s.fetch = .word w →
    (step s = .refused r ↔ refusalOfWord s.config w = some r)

/-! ### Bytes of the text region -/

/-- 20 R42: under `big` the byte at the lowest address of a word holds instruction bits 0:7, under `little` bits 24:31,
and so on upward; no byte stands at any address outside the text region (20 R44; D11: the spec's own decision;
log 13). -/
def Obligations.TextBytesLieInTheByteOrder : Prop :=
  ∀ (s : State), lawfulConfig s.config →
    (∀ (k j : Nat) (w : Word), s.config.text[k]? = some w → j < 4 → ∃ b,
      s.readByte (s.config.textBase + BitVec.ofNat 64 (4 * k + j)) = some b ∧
      (∀ i < 8, s.config.insnByteOrder = .big → b.getMsbD i = w.getMsbD (8 * j + i)) ∧
      (∀ i < 8, s.config.insnByteOrder = .little → b.getMsbD i = w.getMsbD (24 - 8 * j + i))) ∧
    (∀ a : Dword, (∀ k j, k < s.config.text.length → j < 4 →
      a ≠ s.config.textBase + BitVec.ofNat 64 (4 * k + j)) → s.readByte a = none)

/-- 20 R41, R42: loading the bytes of a list of words, in the configured order, gives that list as the text, with the
pc at TEXT_BASE (D11; log 13, log 20). That a base or a length which R41 excludes is loaded too is the model's choice
(log 30). -/
def Obligations.LoadingTheBytesOfWordsGivesTheText : Prop :=
  ∀ (s : State) (base : Dword) (ws : List Word), ∃ t,
    s.loadBytes base (ws.flatMap (bytesOfWord s.config.insnByteOrder)) = some t ∧
    t.config.text = ws ∧ t.config.textBase = base ∧ t.pc = base ∧
    t.gpr = s.gpr ∧ t.cr = s.cr ∧ t.so = s.so ∧ t.config.opcodes = s.config.opcodes
end

