-- ==== Sys2Proof/Laws/Bits.lean ====
section
/-! SUPPORT. Bits of slices, of copies, and of the bytes of a word, numbered from the most significant end. -/

namespace Sys2Proof

/-- Bit `i` of `v[a:b]` is bit `a + i` of `v` (00 R11). -/
theorem getMsbD_slice {n : Nat} (v : BitVec n) {a b i : Nat} (hab : a ≤ b) (hb : b < n) (hi : i ≤ b - a) :
    (slice v a b).getMsbD i = v.getMsbD (a + i) := by
  have h1 : i < b - a + 1 := by omega
  have h2 : n - 1 - b + (b - a + 1) - i ≤ n := by omega
  have h3 : n - (n - 1 - b + (b - a + 1) - i) = a + i := by omega
  rw [slice, BitVec.getMsbD_extractLsb']
  simp [h1, h2, h3]

/-- `b*n` has the bit `b` everywhere (00 R12). -/
@[simp] theorem getMsbD_copies {n i : Nat} (b : Bool) (hi : i < n) : (copies n b).getMsbD i = b := by
  cases b <;> simp [copies, hi]

/-- Bit `i` of byte `k` of a word, in each byte order (20 R42). -/
theorem getMsbD_byteOfWord (order : ByteOrder) (w : Word) {k i : Nat} (hk : k < 4) (hi : i < 8) :
    (byteOfWord order w k).getMsbD i =
      w.getMsbD (match order with | .big => 8 * k + i | .little => 24 - 8 * k + i) := by
  cases order
  · have h1 : 24 - 8 * k + 8 - i ≤ 32 := by omega
    have h2 : 32 - (24 - 8 * k + 8 - i) = 8 * k + i := by omega
    simp [byteOfWord, BitVec.getMsbD_extractLsb', hi, h1, h2]
  · have h1 : 8 * k + 8 - i ≤ 32 := by omega
    have h2 : 32 - (8 * k + 8 - i) = 24 - 8 * k + i := by omega
    simp [byteOfWord, BitVec.getMsbD_extractLsb', hi, h1, h2]

/-- A word's bytes put together again are the word. -/
theorem wordOfBytes_byteOfWord (order : ByteOrder) (w : Word) :
    wordOfBytes order (byteOfWord order w 0) (byteOfWord order w 1) (byteOfWord order w 2) (byteOfWord order w 3) = w := by
  cases order <;>
  · refine BitVec.eq_of_getLsbD_eq fun i hi => ?_
    simp only [wordOfBytes, byteOfWord, BitVec.getLsbD_append, BitVec.getLsbD_extractLsb']
    interval_cases i <;> simp

end Sys2Proof
end

