-- ==== Sys2Proof/Laws/Decode.lean ====
section
/-! SUPPORT. What the decoder's answer says about the selected rows, and what a row selection says about bits. -/

namespace Sys2Proof

theorem mem_allRows (m : Mnemonic) : m ∈ allRows := by cases m <;> decide

/-- The constraint of 30 R65, for every two distinct rows. -/
theorem valid_iff (p : OpcodeParams) : p.valid = true ↔ ∀ m m', m ≠ m' → p.rowsDiffer m m' = true := by
  simp only [OpcodeParams.valid, List.all_eq_true, mem_allRows, true_imp_iff, Bool.or_eq_true, beq_iff_eq,
    ← or_iff_not_imp_left, ne_eq]

theorem rowSelects_iff (p : OpcodeParams) (w : Word) (m : Mnemonic) :
    rowSelects p w m = true ↔ w &&& rowMask m = rowMatch p m := by
  simp [rowSelects]

/-- Two rows that select one word do not differ inside the intersection of their masks (30 R65). -/
theorem rowsDiffer_eq_false_of_selects {p : OpcodeParams} {w : Word} {m m' : Mnemonic}
    (h : rowSelects p w m = true) (h' : rowSelects p w m' = true) : p.rowsDiffer m m' = false := by
  rw [rowSelects_iff] at h h'
  rw [OpcodeParams.rowsDiffer, ← h, ← h', bne_eq_false_iff_eq]
  refine BitVec.eq_of_getLsbD_eq fun i hi => ?_
  simp only [BitVec.getLsbD_and, BitVec.getLsbD_xor]
  cases w.getLsbD i <;> cases (rowMask m).getLsbD i <;> cases (rowMask m').getLsbD i <;> simp

/-- Under lawful opcode numbers at most one row selects a word (30 R65). -/
theorem selects_unique {p : OpcodeParams} (hp : p.valid = true) {w : Word} {m m' : Mnemonic}
    (h : rowSelects p w m = true) (h' : rowSelects p w m' = true) : m = m' := by
  by_contra hne
  simpa [rowsDiffer_eq_false_of_selects h h'] using (valid_iff p).1 hp m m' hne

/-- What the decoder's answer of an instruction means: its row is selected and it is that row's reading. -/
theorem decode_eq_instr {p : OpcodeParams} {w : Word} {i : Instr} (h : decode p w = .instr i) :
    ∃ m, rowSelects p w m = true ∧ i = decodeFields m w := by
  unfold decode at h
  split at h
  · simp at h
  · next m hm =>
    have : m ∈ allRows.filter (rowSelects p w) := by simp [hm]
    exact ⟨m, (List.mem_filter.1 this).2, by simpa using h.symm⟩
  · simp at h

/-- The mnemonic of a row's reading is the row. -/
@[simp] theorem mnemonic_decodeFields (m : Mnemonic) (w : Word) : (decodeFields m w).mnemonic = m := by
  cases m <;> rfl

/-- A filter that keeps exactly one member of a list without repeats. -/
theorem filter_eq_singleton {α : Type} [DecidableEq α] {l : List α} (hl : l.Nodup) {q : α → Bool} {a : α} (ha : a ∈ l)
    (hq : ∀ b ∈ l, q b = true ↔ b = a) : l.filter q = [a] := by
  induction l with
  | nil => simp at ha
  | cons b l ih =>
    obtain ⟨hb, hl⟩ := List.nodup_cons.1 hl
    by_cases hba : b = a
    · subst hba
      have hrest : l.filter q = [] := by
        refine List.filter_eq_nil_iff.2 fun c hc hqc => ?_
        exact hb (((hq c (by simp [hc])).1 hqc) ▸ hc)
      simp [(hq b (by simp)).2 rfl, hrest]
    · have hqb : q b ≠ true := fun h => hba ((hq b (by simp)).1 h)
      have : a ∈ l := by simpa [Ne.symm hba] using ha
      simpa [hqb] using ih hl this fun c hc => hq c (by simp [hc])

/-- Under lawful opcode numbers the decoder answers the selected row's reading (30 R56, R65). -/
theorem decode_of_selects {p : OpcodeParams} (hp : p.valid = true) {w : Word} {m : Mnemonic}
    (h : rowSelects p w m = true) : decode p w = .instr (decodeFields m w) := by
  have hf : allRows.filter (rowSelects p w) = [m] :=
    filter_eq_singleton (by decide) (mem_allRows m) fun b _ =>
      ⟨fun hb => selects_unique hp hb h, fun hb => hb ▸ h⟩
  simp [decode, hf]

end Sys2Proof
end

