-- ==== Sys2Proof/Laws/State.lean ====
section
/-! SUPPORT. One lemma per field per update of State, each true by unfolding that update. -/

namespace Sys2Proof.Machine

variable (s : State) (n : GprNum) (v : Dword) (f : CrNum) (val msk : Nibble) (w : Word)

@[simp] theorem writeGpr_gpr : (s.writeGpr n v).gpr = s.gpr.set n.toNat v n.isLt := rfl
@[simp] theorem writeGpr_cr : (s.writeGpr n v).cr = s.cr := rfl
@[simp] theorem writeGpr_so : (s.writeGpr n v).so = s.so := rfl
@[simp] theorem writeGpr_pc : (s.writeGpr n v).pc = s.pc := rfl
@[simp] theorem writeGpr_config : (s.writeGpr n v).config = s.config := rfl

@[simp] theorem recordCr0_gpr : (s.recordCr0 v).gpr = s.gpr := rfl
@[simp] theorem recordCr0_cr : (s.recordCr0 v).cr = setCrField s.cr 0#3 (cr0Value s.config.mode64 v s.so) := rfl
@[simp] theorem recordCr0_so : (s.recordCr0 v).so = s.so := rfl
@[simp] theorem recordCr0_pc : (s.recordCr0 v).pc = s.pc := rfl
@[simp] theorem recordCr0_config : (s.recordCr0 v).config = s.config := rfl

@[simp] theorem writeCrMasked_gpr : (s.writeCrMasked f val msk).gpr = s.gpr := rfl
@[simp] theorem writeCrMasked_cr :
    (s.writeCrMasked f val msk).cr = setCrField s.cr f (maskedField (s.readCrField f) val msk) := rfl
@[simp] theorem writeCrMasked_so : (s.writeCrMasked f val msk).so = s.so := rfl
@[simp] theorem writeCrMasked_pc : (s.writeCrMasked f val msk).pc = s.pc := rfl
@[simp] theorem writeCrMasked_config : (s.writeCrMasked f val msk).config = s.config := rfl

@[simp] theorem advance_gpr : s.advance.gpr = s.gpr := rfl
@[simp] theorem advance_cr : s.advance.cr = s.cr := rfl
@[simp] theorem advance_so : s.advance.so = s.so := rfl
@[simp] theorem advance_pc : s.advance.pc = s.pc + 4 := rfl
@[simp] theorem advance_config : s.advance.config = s.config := rfl

@[simp] theorem withText_text (c : Config) (b : Dword) (ws : List Word) : (withText c b ws).text = ws := rfl
@[simp] theorem withText_textBase (c : Config) (b : Dword) (ws : List Word) : (withText c b ws).textBase = b := rfl
@[simp] theorem withText_opcodes (c : Config) (b : Dword) (ws : List Word) :
    (withText c b ws).opcodes = c.opcodes := rfl
@[simp] theorem withText_lutOrder (c : Config) (b : Dword) (ws : List Word) :
    (withText c b ws).lutOrder = c.lutOrder := rfl
@[simp] theorem withText_reservedNonzero (c : Config) (b : Dword) (ws : List Word) :
    (withText c b ws).reservedNonzero = c.reservedNonzero := rfl
@[simp] theorem withText_mode64 (c : Config) (b : Dword) (ws : List Word) : (withText c b ws).mode64 = c.mode64 := rfl
@[simp] theorem withText_insnByteOrder (c : Config) (b : Dword) (ws : List Word) :
    (withText c b ws).insnByteOrder = c.insnByteOrder := rfl

/-- Placing a word for the fetch changes the configuration's text, and no register. -/
theorem placeWord_registers :
    (s.placeWord w).gpr = s.gpr ∧ (s.placeWord w).cr = s.cr ∧ (s.placeWord w).so = s.so ∧
      (s.placeWord w).pc = s.pc := by
  unfold State.placeWord
  split
  · exact ⟨rfl, rfl, rfl, rfl⟩
  · split <;> exact ⟨rfl, rfl, rfl, rfl⟩

end Sys2Proof.Machine
end

