-- ==== Sys2Proof/Laws/Operands.lean ====
section
/-! SUPPORT. Registers and CR Fields: a read after a write gives the value written, and nothing else changes. -/

namespace Sys2Proof.Machine

/-- Read after write of a GPR; no register is hard-wired and none aliases another (10 R22). -/
theorem readGpr_writeGpr (s : State) (n m : GprNum) (v : Dword) :
    (s.writeGpr n v).readGpr m = if m = n then v else s.readGpr m := by
  simp only [State.readGpr, writeGpr_gpr, Vector.getElem_set, ← BitVec.toNat_inj (x := m), eq_comm]

@[simp] theorem readGpr_writeGpr_self (s : State) (n : GprNum) (v : Dword) : (s.writeGpr n v).readGpr n = v := by
  simp [readGpr_writeGpr]

theorem readGpr_writeGpr_of_ne (s : State) {n m : GprNum} (v : Dword) (h : m ≠ n) :
    (s.writeGpr n v).readGpr m = s.readGpr m := by
  simp [readGpr_writeGpr, h]

@[simp] theorem readGpr_recordCr0 (s : State) (v : Dword) (m : GprNum) : (s.recordCr0 v).readGpr m = s.readGpr m := rfl
@[simp] theorem readGpr_writeCrMasked (s : State) (f : CrNum) (val msk : Nibble) (m : GprNum) :
    (s.writeCrMasked f val msk).readGpr m = s.readGpr m := rfl
@[simp] theorem readGpr_advance (s : State) (m : GprNum) : s.advance.readGpr m = s.readGpr m := rfl
@[simp] theorem crBit_advance (s : State) (k : Nat) : s.advance.crBit k = s.crBit k := rfl
@[simp] theorem crBit_writeGpr (s : State) (n : GprNum) (v : Dword) (k : Nat) :
    (s.writeGpr n v).crBit k = s.crBit k := rfl
@[simp] theorem readCrField_advance (s : State) (n : CrNum) : s.advance.readCrField n = s.readCrField n := rfl
@[simp] theorem readCrField_writeGpr (s : State) (n : GprNum) (v : Dword) (m : CrNum) :
    (s.writeGpr n v).readCrField m = s.readCrField m := rfl

/-- A byte of the text region depends on the configuration alone. -/
theorem readByte_congr {s t : State} (h : t.config = s.config) (a : Dword) : t.readByte a = s.readByte a := by
  simp [State.readByte, h]

end Sys2Proof.Machine
end

