-- ==== Sys2Proof/Laws/Flags.lean ====
section
/-! SUPPORT. What the writes of the Condition Register do to each of its bits. -/

namespace Sys2Proof.Machine

/-- Bit `i` of CR Field `n` is CR bit `4n + 32 + i` (10 R25). -/
theorem getMsbD_readCrField (s : State) (n : CrNum) {i : Nat} (hi : i < 4) :
    (s.readCrField n).getMsbD i = s.crBit (4 * n.toNat + 32 + i) := by
  have hn := n.isLt
  have h1 : 28 - 4 * n.toNat + 4 - i ≤ 32 := by omega
  have h2 : 32 - (28 - 4 * n.toNat + 4 - i) = 4 * n.toNat + i := by omega
  have h3 : 4 * n.toNat + 32 + i - 32 = 4 * n.toNat + i := by omega
  simp [State.readCrField, crField, State.crBit, BitVec.getMsbD_extractLsb', hi, h1, h2, h3]

/-- Every bit of a CR value with one field replaced; bits counted from 0 at the left. -/
theorem getMsbD_setCrField (cr : BitVec 32) (n : CrNum) (v : Nibble) {k : Nat} (hk : k < 32) :
    (setCrField cr n v).getMsbD k =
      if 4 * n.toNat ≤ k ∧ k < 4 * n.toNat + 4 then v.getMsbD (k - 4 * n.toNat) else cr.getMsbD k := by
  have hn := n.isLt
  have hl : 31 - k < 32 := by omega
  have h15 : ∀ m : Nat, (0xF#32).getLsbD m = decide (m < 4) := by
    intro m
    rcases Nat.lt_or_ge m 32 with h | h
    · interval_cases m <;> decide
    · rw [BitVec.getLsbD_of_ge _ _ h]; simp; omega
  simp only [BitVec.getMsbD, hk, decide_true, Bool.true_and, show 32 - 1 - k = 31 - k by omega]
  simp only [setCrField, BitVec.getLsbD_or, BitVec.getLsbD_and, BitVec.getLsbD_not, BitVec.getLsbD_shiftLeft,
    BitVec.getLsbD_setWidth, hl, h15, decide_true, Bool.true_and]
  by_cases hlo : 31 - k < 28 - 4 * n.toNat
  · have hout : ¬ (4 * n.toNat ≤ k ∧ k < 4 * n.toNat + 4) := by omega
    simp [hlo, hout]
  · by_cases hhi : 31 - k - (28 - 4 * n.toNat) < 4
    · have hin : 4 * n.toNat ≤ k ∧ k < 4 * n.toNat + 4 := by omega
      have h4 : k - 4 * n.toNat < 4 := by omega
      have hix : 31 - k - (28 - 4 * n.toNat) = 4 - 1 - (k - 4 * n.toNat) := by omega
      simp only [hin, if_true, hlo, hhi, decide_true, decide_false, h4, Bool.not_false, Bool.and_true, Bool.true_and,
        Bool.not_true, Bool.and_false, Bool.false_or, and_self]
      rw [hix]
      have : 4 - 1 - (k - 4 * n.toNat) < 32 := by omega
      simp [this]
    · have hout : ¬ (4 * n.toNat ≤ k ∧ k < 4 * n.toNat + 4) := by omega
      have hv : v.getLsbD (31 - k - (28 - 4 * n.toNat)) = false := BitVec.getLsbD_of_ge _ _ (by omega)
      simp [hlo, hhi, hout, hv]

/-- Every CR bit after `ternlogi.` records CR0 (41 R83). -/
theorem crBit_recordCr0 (s : State) (result : Dword) {k : Nat} (h1 : 32 ≤ k) (h2 : k ≤ 63) :
    (s.recordCr0 result).crBit k =
      if k ≤ 35 then (cr0Value s.config.mode64 result s.so).getMsbD (k - 32) else s.crBit k := by
  have hk : k - 32 < 32 := by omega
  have := getMsbD_setCrField s.cr 0#3 (cr0Value s.config.mode64 result s.so) hk
  simp only [State.crBit, recordCr0_cr, this]
  by_cases h : k ≤ 35
  · have h' : k - 32 < 4 := by omega
    simp [h, h']
  · have h' : ¬ k - 32 < 4 := by omega
    simp [h, h']

/-- One bit of a field under a write mask (41 R85). -/
theorem getMsbD_maskedField (old val msk : Nibble) {i : Nat} (hi : i < 4) :
    (maskedField old val msk).getMsbD i = if msk.getMsbD i = true then val.getMsbD i else old.getMsbD i := by
  simp only [maskedField, BitVec.getMsbD_or, BitVec.getMsbD_and, BitVec.getMsbD_not, hi, decide_true, Bool.true_and]
  cases msk.getMsbD i <;> simp

/-- Every CR bit after a masked CR-field write (41 R85). -/
theorem crBit_writeCrMasked (s : State) (f : CrNum) (val msk : Nibble) {k : Nat} (h1 : 32 ≤ k) (h2 : k ≤ 63) :
    (s.writeCrMasked f val msk).crBit k =
      if (4 * f.toNat + 32 ≤ k ∧ k ≤ 4 * f.toNat + 35) ∧ msk.getMsbD (k - (4 * f.toNat + 32)) = true
      then val.getMsbD (k - (4 * f.toNat + 32)) else s.crBit k := by
  have hk : k - 32 < 32 := by omega
  have hset := getMsbD_setCrField s.cr f (maskedField (s.readCrField f) val msk) hk
  simp only [State.crBit, writeCrMasked_cr, hset]
  by_cases hin : 4 * f.toNat + 32 ≤ k ∧ k ≤ 4 * f.toNat + 35
  · have hin' : 4 * f.toNat ≤ k - 32 ∧ k - 32 < 4 * f.toNat + 4 := by omega
    have hi : k - (4 * f.toNat + 32) < 4 := by omega
    have hix : k - 32 - 4 * f.toNat = k - (4 * f.toNat + 32) := by omega
    have hback : 4 * f.toNat + 32 + (k - (4 * f.toNat + 32)) = k := by omega
    rw [if_pos hin', hix, getMsbD_maskedField _ _ _ hi, getMsbD_readCrField _ _ hi, hback]
    simp only [hin, true_and, and_self, State.crBit]
  · have hin' : ¬ (4 * f.toNat ≤ k - 32 ∧ k - 32 < 4 * f.toNat + 4) := by omega
    rw [if_neg hin', if_neg (by simp only [hin, false_and, not_false_eq_true])]

/-- CR0's first three bits are LT, GT, EQ of the number the mode compares with zero, its last is SO (41 R83). -/
theorem getMsbD_cr0Value (mode64 : Bool) (result : Dword) (so : Bool) (v : Int)
    (hv : v = if mode64 = true then result.toInt else (BitVec.setWidth 32 result).toInt) :
    (cr0Value mode64 result so).getMsbD 0 = decide (v < 0) ∧ (cr0Value mode64 result so).getMsbD 1 = decide (v > 0) ∧
    (cr0Value mode64 result so).getMsbD 2 = decide (v = 0) ∧ (cr0Value mode64 result so).getMsbD 3 = so := by
  have hs : slice result 32 63 = BitVec.setWidth 32 result := by
    refine BitVec.eq_of_getLsbD_eq fun i hi => ?_
    simp [slice, BitVec.getLsbD_extractLsb']
  have key : ∀ u : Int, ∀ c : BitVec 3, c = (if u < 0 then 0b100#3 else if u > 0 then 0b010#3 else 0b001#3) →
      (c ++ BitVec.ofBool so : BitVec 4).getMsbD 0 = decide (u < 0) ∧
      (c ++ BitVec.ofBool so : BitVec 4).getMsbD 1 = decide (u > 0) ∧
      (c ++ BitVec.ofBool so : BitVec 4).getMsbD 2 = decide (u = 0) ∧
      (c ++ BitVec.ofBool so : BitVec 4).getMsbD 3 = so := by
    intro u c hc
    rcases lt_trichotomy u 0 with h | h | h
    · have h2 : ¬ 0 < u := by omega
      have h3 : ¬ u = 0 := by omega
      subst hc; simp [h, h2, h3]; cases so <;> decide
    · subst h; subst hc; cases so <;> decide
    · have h2 : ¬ u < 0 := by omega
      have h3 : ¬ u = 0 := by omega
      subst hc; simp [h, h2, h3]; cases so <;> decide
  cases mode64
  · rw [if_neg (by decide)] at hv
    refine key v _ ?_
    rw [if_neg (by decide), hs, signClass, hv]
  · rw [if_pos rfl] at hv
    refine key v _ ?_
    rw [if_pos rfl, signClass, hv]

end Sys2Proof.Machine
end

