-- ==== Sys2Proof/Laws/Lookup.lean ====
section
/-! SUPPORT. What the two look-ups give at one bit position; every fact about them follows from these. -/

namespace Sys2Proof.Machine

/-- One bit of `LUT3` (41 R80). -/
theorem getMsbD_lut3 {n i : Nat} (order : LutOrder) (tbl : Table8) (x y z : BitVec n) (hi : i < n) :
    (lut3 order tbl x y z).getMsbD i =
      tableBit order tbl (4 * (x.getMsbD i).toNat + 2 * (y.getMsbD i).toNat + (z.getMsbD i).toNat) := by
  simp only [lut3, BitVec.getMsbD_or, BitVec.getMsbD_and, BitVec.getMsbD_not, hi, getMsbD_copies, decide_true,
    Bool.true_and]
  cases x.getMsbD i <;> cases y.getMsbD i <;> cases z.getMsbD i <;> simp

/-- One bit of `LUT2` (42 R100). -/
theorem getMsbD_lut2 {n i : Nat} (order : LutOrder) (tbl : Nibble) (x y : BitVec n) (hi : i < n) :
    (lut2 order tbl x y).getMsbD i =
      tableBit order tbl (2 * (x.getMsbD i).toNat + (y.getMsbD i).toNat) := by
  simp only [lut2, BitVec.getMsbD_or, BitVec.getMsbD_and, BitVec.getMsbD_not, hi, getMsbD_copies, decide_true,
    Bool.true_and]
  cases x.getMsbD i <;> cases y.getMsbD i <;> simp

@[simp] theorem tableBit_msb0 {n : Nat} (tbl : BitVec n) (j : Nat) : tableBit .msb0 tbl j = tbl.getMsbD j := rfl
@[simp] theorem tableBit_lsb0 {n : Nat} (tbl : BitVec n) (j : Nat) : tableBit .lsb0 tbl j = tbl.getLsbD j := rfl

/-- The nibble of `binlog` starts at bit 56 or at bit 60 (42 R101). -/
theorem getMsbD_binlogTable (c : Dword) (nh : Bool) {j : Nat} (hj : j < 4) :
    (binlogTable c nh).getMsbD j = c.getMsbD ((if nh then 56 else 60) + j) := by
  cases nh
  · exact getMsbD_slice c (by omega) (by omega) (by omega)
  · exact getMsbD_slice c (by omega) (by omega) (by omega)

end Sys2Proof.Machine
end

