-- ==== Sys2Proof/Laws/Exec.lean ====
section
/-! SUPPORT. Each instruction's meaning said once: what it answers, and on what condition. -/

namespace Sys2Proof.Machine

theorem exec_ternlogi (rt ra rb : GprNum) (tli : Table8) (s : State) :
    exec (.ternlogi rt ra rb tli) s = .next (s.writeGpr rt (ternaryResult rt ra rb tli s)).advance := rfl

theorem exec_ternlogiRc (rt ra rb : GprNum) (tli : Table8) (s : State) :
    exec (.ternlogiRc rt ra rb tli) s = .next ((s.writeGpr rt (ternaryResult rt ra rb tli s)).recordCr0
      (ternaryResult rt ra rb tli s)).advance := rfl

theorem exec_crternlogi_trap (bf bfa bfb : CrNum) (tli : Table8) (s : State) :
    exec (.crternlogi bf bfa bfb tli 0#4) s =
      .fault (.illegalInstruction (encode s.config.opcodes (.crternlogi bf bfa bfb tli 0#4)) s.pc) := rfl

theorem exec_crternlogi (bf bfa bfb : CrNum) (tli : Table8) {msk : Nibble} (s : State) (h : msk ≠ 0#4) :
    exec (.crternlogi bf bfa bfb tli msk) s = .next (s.writeCrMasked bf
      (lut3 s.config.lutOrder tli (s.readCrField bf) (s.readCrField bfa) (s.readCrField bfb)) msk).advance := by
  show execCrternlogi bf bfa bfb tli msk s = _
  rw [execCrternlogi, if_neg h]
  rfl

theorem exec_binlog (rt ra rb rc : GprNum) (nh : Bool) (s : State) :
    exec (.binlog rt ra rb rc nh) s = .next (s.writeGpr rt
      (lut2 .msb0 (binlogTable (s.readGpr rc) nh) (s.readGpr ra) (s.readGpr rb))).advance := rfl

theorem exec_crbinlog_trap (bf bfa bfb : CrNum) (rsv : BitVec 8) (s : State) :
    exec (.crbinlog bf bfa bfb 0#4 rsv) s =
      .fault (.illegalInstruction (encode s.config.opcodes (.crbinlog bf bfa bfb 0#4 rsv)) s.pc) := rfl

theorem exec_crbinlog_refused (bf bfa bfb : CrNum) {msk : Nibble} {rsv : BitVec 8} (s : State) (h : msk ≠ 0#4)
    (hr : rsv ≠ 0#8) (hp : s.config.reservedNonzero = .refuse) :
    exec (.crbinlog bf bfa bfb msk rsv) s =
      .refused (.reservedBitsSet (encode s.config.opcodes (.crbinlog bf bfa bfb msk rsv))) := by
  show execCrbinlog bf bfa bfb msk rsv s = _
  rw [execCrbinlog, if_neg h, if_pos ⟨hr, hp⟩]

theorem exec_crbinlog (bf bfa bfb : CrNum) {msk : Nibble} {rsv : BitVec 8} (s : State) (h : msk ≠ 0#4)
    (hr : rsv = 0#8 ∨ s.config.reservedNonzero = .ignore) :
    exec (.crbinlog bf bfa bfb msk rsv) s = .next (s.writeCrMasked bf
      (lut2 .msb0 (s.readCrField bfb) (s.readCrField bf) (s.readCrField bfa)) msk).advance := by
  have : ¬ (rsv ≠ 0#8 ∧ s.config.reservedNonzero = .refuse) := by
    rintro ⟨h1, h2⟩
    rcases hr with hr | hr
    · exact h1 hr
    · simp [h2] at hr
  show execCrbinlog bf bfa bfb msk rsv s = _
  rw [execCrbinlog, if_neg h, if_neg this]
  rfl

/-- The three ways `exec` of any instruction ends: a state written through the operations above, whose SO,
configuration and pc are known; the trap of a zero mask; the refusal of reserved bits. -/
theorem exec_cases (i : Instr) (s : State) :
    (∃ t, exec i s = .next t ∧ t.so = s.so ∧ t.config = s.config ∧ t.pc = s.pc + 4) ∨
    (exec i s = .fault (.illegalInstruction (encode s.config.opcodes i) s.pc) ∧
      ((∃ bf bfa bfb tli, i = .crternlogi bf bfa bfb tli 0#4) ∨ (∃ bf bfa bfb rsv, i = .crbinlog bf bfa bfb 0#4 rsv))) ∨
    (∃ bf bfa bfb msk rsv, i = .crbinlog bf bfa bfb msk rsv ∧ msk ≠ 0#4 ∧ rsv ≠ 0#8 ∧
      s.config.reservedNonzero = .refuse ∧ exec i s = .refused (.reservedBitsSet (encode s.config.opcodes i))) := by
  cases i with
  | ternlogi rt ra rb tli => exact .inl ⟨_, exec_ternlogi rt ra rb tli s, rfl, rfl, rfl⟩
  | ternlogiRc rt ra rb tli => exact .inl ⟨_, exec_ternlogiRc rt ra rb tli s, rfl, rfl, rfl⟩
  | crternlogi bf bfa bfb tli msk =>
    by_cases h : msk = 0#4
    · subst h
      exact .inr (.inl ⟨exec_crternlogi_trap bf bfa bfb tli s, .inl ⟨bf, bfa, bfb, tli, rfl⟩⟩)
    · exact .inl ⟨_, exec_crternlogi bf bfa bfb tli s h, rfl, rfl, rfl⟩
  | binlog rt ra rb rc nh => exact .inl ⟨_, exec_binlog rt ra rb rc nh s, rfl, rfl, rfl⟩
  | crbinlog bf bfa bfb msk rsv =>
    by_cases h : msk = 0#4
    · subst h
      exact .inr (.inl ⟨exec_crbinlog_trap bf bfa bfb rsv s, .inr ⟨bf, bfa, bfb, rsv, rfl⟩⟩)
    · by_cases hr : rsv = 0#8 ∨ s.config.reservedNonzero = .ignore
      · exact .inl ⟨_, exec_crbinlog bf bfa bfb s h hr, rfl, rfl, rfl⟩
      · have hr1 : rsv ≠ 0#8 := fun h1 => hr (.inl h1)
        have hr2 : s.config.reservedNonzero = .refuse := by
          cases hp : s.config.reservedNonzero
          · rfl
          · exact absurd (.inr hp) hr
        exact .inr (.inr ⟨bf, bfa, bfb, msk, rsv, rfl, h, hr1, hr2, exec_crbinlog_refused bf bfa bfb s h hr1 hr2⟩)

/-- What every instruction that goes on keeps. -/
theorem exec_next_keeps {i : Instr} {s t : State} (h : exec i s = .next t) :
    t.so = s.so ∧ t.config = s.config ∧ t.pc = s.pc + 4 := by
  rcases exec_cases i s with ⟨u, hu, hk⟩ | ⟨hf, _⟩ | ⟨_, _, _, _, _, _, _, _, _, hr⟩
  · rw [hu] at h
    cases h
    exact hk
  · rw [hf] at h
    cases h
  · rw [hr] at h
    cases h

end Sys2Proof.Machine
end

