-- ==== Sys2Proof/Laws/PerInstr.lean ====
section
/-! SUPPORT. Families of lemmas with one lemma per constructor of Instr. -/

namespace Sys2Proof.Laws.EncodeSelects

/-- An instruction's encoding is selected by the instruction's own row, and its fields read back (30 R51 to R53,
R65, R77), whatever the opcode numbers are. -/
def Statement (i : Instr) : Prop :=
  ∀ p : OpcodeParams, rowSelects p (encode p i) i.mnemonic = true ∧ decodeFields i.mnemonic (encode p i) = i

theorem ternlogi (rt ra rb : GprNum) (tli : Table8) : Statement (.ternlogi rt ra rb tli) := by
  intro p
  constructor
  · rw [rowSelects_iff]
    refine BitVec.eq_of_getLsbD_eq fun i hi => ?_
    simp only [encode, rowMask, rowMatch, Instr.mnemonic, BitVec.getLsbD_and, BitVec.getLsbD_append, BitVec.getLsbD_or,
      BitVec.getLsbD_shiftLeft, BitVec.getLsbD_setWidth]
    interval_cases i <;> simp
  · simp only [encode, decodeFields, Instr.mnemonic, slice, Instr.ternlogi.injEq]
    refine ⟨?_, ?_, ?_, ?_⟩ <;>
    · refine BitVec.eq_of_getLsbD_eq fun i hi => ?_
      simp only [BitVec.getLsbD_extractLsb', BitVec.getLsbD_append]
      interval_cases i <;> simp

theorem ternlogiRc (rt ra rb : GprNum) (tli : Table8) : Statement (.ternlogiRc rt ra rb tli) := by
  intro p
  constructor
  · rw [rowSelects_iff]
    refine BitVec.eq_of_getLsbD_eq fun i hi => ?_
    simp only [encode, rowMask, rowMatch, Instr.mnemonic, BitVec.getLsbD_and, BitVec.getLsbD_append, BitVec.getLsbD_or,
      BitVec.getLsbD_shiftLeft, BitVec.getLsbD_setWidth]
    interval_cases i <;> simp
  · simp only [encode, decodeFields, Instr.mnemonic, slice, Instr.ternlogiRc.injEq]
    refine ⟨?_, ?_, ?_, ?_⟩ <;>
    · refine BitVec.eq_of_getLsbD_eq fun i hi => ?_
      simp only [BitVec.getLsbD_extractLsb', BitVec.getLsbD_append]
      interval_cases i <;> simp

theorem crternlogi (bf bfa bfb : CrNum) (tli : Table8) (msk : Nibble) : Statement (.crternlogi bf bfa bfb tli msk) := by
  intro p
  constructor
  · rw [rowSelects_iff]
    refine BitVec.eq_of_getLsbD_eq fun i hi => ?_
    simp only [encode, rowMask, rowMatch, Instr.mnemonic, slice, BitVec.getLsbD_and, BitVec.getLsbD_append,
      BitVec.getLsbD_or, BitVec.getLsbD_shiftLeft, BitVec.getLsbD_setWidth, BitVec.getLsbD_extractLsb']
    interval_cases i <;> simp
  · simp only [encode, decodeFields, maskField, crbTableField, Instr.mnemonic, slice, Instr.crternlogi.injEq]
    refine ⟨?_, ?_, ?_, ?_, ?_⟩ <;>
    · refine BitVec.eq_of_getLsbD_eq fun i hi => ?_
      simp only [BitVec.getLsbD_extractLsb', BitVec.getLsbD_append]
      interval_cases i <;> simp

theorem binlog (rt ra rb rc : GprNum) (nh : Bool) : Statement (.binlog rt ra rb rc nh) := by
  intro p
  constructor
  · rw [rowSelects_iff]
    refine BitVec.eq_of_getLsbD_eq fun i hi => ?_
    simp only [encode, rowMask, rowMatch, Instr.mnemonic, BitVec.getLsbD_and, BitVec.getLsbD_append, BitVec.getLsbD_or,
      BitVec.getLsbD_shiftLeft, BitVec.getLsbD_setWidth]
    interval_cases i <;> simp
  · simp only [encode, decodeFields, Instr.mnemonic, slice, Instr.binlog.injEq]
    refine ⟨?_, ?_, ?_, ?_, ?_⟩
    case refine_5 =>
      simp only [BitVec.getMsbD, BitVec.getLsbD_append]
      simp
    all_goals
      refine BitVec.eq_of_getLsbD_eq fun i hi => ?_
      simp only [BitVec.getLsbD_extractLsb', BitVec.getLsbD_append]
      interval_cases i <;> simp

theorem crbinlog (bf bfa bfb : CrNum) (msk : Nibble) (rsv : BitVec 8) : Statement (.crbinlog bf bfa bfb msk rsv) := by
  intro p
  constructor
  · rw [rowSelects_iff]
    refine BitVec.eq_of_getLsbD_eq fun i hi => ?_
    simp only [encode, rowMask, rowMatch, Instr.mnemonic, slice, BitVec.getLsbD_and, BitVec.getLsbD_append,
      BitVec.getLsbD_or, BitVec.getLsbD_shiftLeft, BitVec.getLsbD_setWidth, BitVec.getLsbD_extractLsb']
    interval_cases i <;> simp
  · simp only [encode, decodeFields, maskField, reservedField, Instr.mnemonic, slice, Instr.crbinlog.injEq]
    refine ⟨?_, ?_, ?_, ?_, ?_⟩ <;>
    · refine BitVec.eq_of_getLsbD_eq fun i hi => ?_
      simp only [BitVec.getLsbD_extractLsb', BitVec.getLsbD_append]
      interval_cases i <;> simp

end Sys2Proof.Laws.EncodeSelects
end

