-- ==== Sys2Proof/Laws/Step.lean ====
section
/-! SUPPORT. The fetch and the step: what stands at an address, and what a step that goes on has done. -/

namespace Sys2Proof.Machine

/-- The offset of an address in the text region, counted from TEXT_BASE. -/
theorem textOffset_base_add (c : Config) {m : Nat} (hm : m < 2 ^ 64) :
    textOffset c (c.textBase + BitVec.ofNat 64 m) = m := by
  have h : c.textBase + BitVec.ofNat 64 m - c.textBase = BitVec.ofNat 64 m := by
    rw [BitVec.add_comm, BitVec.add_sub_cancel]
  rw [textOffset, h, BitVec.toNat_ofNat, Nat.mod_eq_of_lt hm]

/-- Every address is TEXT_BASE and its offset. -/
theorem base_add_textOffset (c : Config) (a : Dword) : c.textBase + BitVec.ofNat 64 (textOffset c a) = a := by
  rw [textOffset, BitVec.ofNat_toNat, BitVec.setWidth_eq, BitVec.add_comm, BitVec.sub_add_cancel]

/-- A word is fetched exactly at its address (20 R41). -/
theorem fetch_eq_word_iff (s : State) (w : Word) :
    s.fetch = .word w ↔ textOffset s.config s.pc % 4 = 0 ∧
      s.config.text[textOffset s.config s.pc / 4]? = some w := by
  unfold State.fetch
  split
  · next h =>
    split
    · next w' hw => simp [h, hw]
    · next hn => split <;> simp [hn]
  · next h => simp [h]

/-- The run has ended exactly at the end of the text (20 R41, 70 R145). -/
theorem fetch_eq_ended_iff (s : State) :
    s.fetch = .ended ↔ textOffset s.config s.pc % 4 = 0 ∧
      textOffset s.config s.pc / 4 = s.config.text.length := by
  unfold State.fetch
  split
  · next h =>
    split
    · next w' hw =>
      have : textOffset s.config s.pc / 4 ≠ s.config.text.length := by
        have := (List.getElem?_eq_some_iff.1 hw).1
        omega
      simp [h, this]
    · next hn =>
      split
      · next hl => simp [h, hl]
      · next hl => simp [hl]
  · next h => simp [h]

/-- What a step that goes on has done: fetched a word, decoded it, and run it. -/
theorem step_next_cases {s t : State} (h : step s = .next t) :
    ∃ w i, s.fetch = .word w ∧ decode s.config.opcodes w = .instr i ∧ exec i s = .next t := by
  unfold step at h
  split at h
  · next w hw =>
    unfold stepWord at h
    split at h
    · next i hi => exact ⟨w, i, hw, hi, h⟩
    · cases h
    · cases h
  · cases h
  · cases h

theorem step_of_word {s : State} {w : Word} (h : s.fetch = .word w) : step s = stepWord w s := by
  simp [step, h]

theorem stepWord_of_instr {s : State} {w : Word} {i : Instr} (h : decode s.config.opcodes w = .instr i) :
    stepWord w s = exec i s := by
  simp [stepWord, h]

/-- The word that `placeWord` puts down is the one fetched next. -/
theorem fetch_placeWord (s : State) (w : Word) : (s.placeWord w).fetch = .word w := by
  rw [fetch_eq_word_iff]
  unfold State.placeWord
  split
  · next h => exact ⟨h.1, List.getElem?_set_self h.2⟩
  · split
    · next h =>
      refine ⟨h.1, ?_⟩
      show (s.config.text ++ [w])[textOffset s.config s.pc / 4]? = some w
      simp [h.2]
    · have h0 : textOffset (withText s.config s.pc [w]) s.pc = 0 := by simp [textOffset]
      exact ⟨by rw [h0], by rw [h0]; rfl⟩

/-- The next step after placing an instruction's bits runs that word (`Sys2Proof.Machine.State.withFetchWord`). -/
theorem step_withFetchWord (s : State) (nbits w : Nat) :
    step (s.withFetchWord nbits w) = stepWord (BitVec.ofNat 32 (w % 2 ^ nbits)) (s.withFetchWord nbits w) :=
  step_of_word (fetch_placeWord s _)

/-- A loaded image of whole words is those words (20 R42). -/
theorem wordsOfBytes_flatMap (order : ByteOrder) (ws : List Word) :
    wordsOfBytes order (ws.flatMap (bytesOfWord order)) = some ws := by
  induction ws with
  | nil => rfl
  | cons w ws ih => simp [bytesOfWord, wordsOfBytes, ih, wordOfBytes_byteOfWord]

end Sys2Proof.Machine
end

