-- ==== Sys2Proof/Laws/Program.lean ====
section
/-! SUPPORT. The whole-text test and the run of a program: what each of them answers. -/

namespace Sys2Proof.Machine

/-- The only refused instruction, and when. -/
theorem refusedInstr_eq_true_iff {policy : ReservedPolicy} {i : Instr} :
    refusedInstr policy i = true ↔ ∃ bf bfa bfb msk rsv, i = .crbinlog bf bfa bfb msk rsv ∧
      msk ≠ 0#4 ∧ rsv ≠ 0#8 ∧ policy = .refuse := by
  cases i <;> simp [refusedInstr, and_assoc]

theorem refusalOfWord_of_instr {c : Config} {w : Word} {i : Instr} (h : decode c.opcodes w = .instr i) :
    refusalOfWord c w = if refusedInstr c.reservedNonzero i then some (.reservedBitsSet w) else none := by
  simp [refusalOfWord, h]

theorem refusalOfWord_of_outside {c : Config} {w : Word} (h : decode c.opcodes w = .rejected .wordOutsideSpec) :
    refusalOfWord c w = some (.wordOutsideSpec w) := by
  simp [refusalOfWord, h]

theorem refusalOfWord_of_ambiguous {c : Config} {w : Word} (h : decode c.opcodes w = .rejected .ambiguousOpcode) :
    refusalOfWord c w = some (.ambiguousOpcode w) := by
  simp [refusalOfWord, h]

/-- A word that is not refused decodes, to an instruction that is not refused. -/
theorem refusalOfWord_eq_none_iff {c : Config} {w : Word} :
    refusalOfWord c w = none ↔ ∃ i, decode c.opcodes w = .instr i ∧ refusedInstr c.reservedNonzero i = false := by
  unfold refusalOfWord
  split <;> simp_all

/-- The test looks at every word of the text. -/
theorem programRefusal_eq_none_iff {c : Config} :
    programRefusal c = none ↔ ∀ w ∈ c.text, refusalOfWord c w = none :=
  List.findSome?_eq_none_iff

theorem runProgram_of_refused {s : State} {r : Refusal} (h : programRefusal s.config = some r) :
    runProgram s = .refused r := by
  simp [runProgram, h]

theorem runProgram_of_fault {s : State} {f : Fault} (h : programRefusal s.config = none)
    (hr : run s.config.text.length s = .fault f) : runProgram s = .faulted f := by
  simp [runProgram, h, hr]

theorem runProgram_of_next {s t : State} (h : programRefusal s.config = none)
    (hr : run s.config.text.length s = .next t) : runProgram s = .normalEnd t := by
  simp [runProgram, h, hr]

@[simp] theorem run_zero (s : State) : run 0 s = .next s := rfl

theorem run_succ_of_next {k : Nat} {s t : State} (h : step s = .next t) : run (k + 1) s = run k t := by
  simp [run, h]

/-- Steps that go on can be counted in two parts. -/
theorem run_add_of_next {a : Nat} (b : Nat) {s t : State} (h : run a s = .next t) : run (a + b) s = run b t := by
  induction a generalizing s with
  | zero => cases h; simp
  | succ a ih =>
    rw [show a + 1 + b = (a + b) + 1 by omega]
    simp only [run] at h ⊢
    cases hu : step s with
    | next u => rw [hu] at h; exact ih h
    | fault f => rw [hu] at h; cases h
    | refused f => rw [hu] at h; cases h

end Sys2Proof.Machine
end

