-- ==== Sys2Proof/Tests/Slice0.lean ====
section
/-! SUPPORT. The model's own tests. Expected values are the spec's (95_test_vectors.md, by vector id), and the words are
written out bit by bit from the forms (30 R51 to R53) under the spec's labelled test fixture TESTPARAMS. -/

namespace Sys2Proof.Tests
open Sys2Proof.Machine

/-! ### Helpers -/

/-- A state with the given GPRs, CR and SO, everything else as at launch. -/
def st (regs : List (GprNum × Dword)) (cr : BitVec 32 := 0) (so : Bool := false) : State :=
  regs.foldl (fun s r => s.writeGpr r.1 r.2) { State.reset with cr := cr, so := so }

/-- A state whose text is the given words, at the given TEXT_BASE, with the pc there. -/
def textState (ws : List Word) (base : Dword := 0x4000) (cr : BitVec 32 := 0x350FAC69) : State :=
  { State.reset with cr := cr, pc := base, config := withText Config.launch base ws }

def nextOf : Host.Outcome State Fault Refusal → Option State
  | .next t => some t
  | .fault _ => none
  | .refused _ => none

def faultOf : Host.Outcome State Fault Refusal → Option Fault
  | .next _ => none
  | .fault f => some f
  | .refused _ => none

def refusalOf : Host.Outcome State Fault Refusal → Option Refusal
  | .next _ => none
  | .fault _ => none
  | .refused r => some r

def gprAfter (i : Instr) (s : State) (n : GprNum) : Option Dword := (nextOf (exec i s)).map (·.readGpr n)
def crAfter (i : Instr) (s : State) : Option (BitVec 32) := (nextOf (exec i s)).map (·.cr)

/-- The three operands of 95_test_vectors.md. -/
def T : Dword := 0x0123456789ABCDEF
def A : Dword := 0xDEADBEEFCAFEF00D
def B : Dword := 0x5A5A5A5AA5A5A5A5

/-! ### WellFormed: an ill-formed term for each check -/

/-- 30 R66 -/
theorem test_wellFormed_refuses_crternlogi_mask_zero : (Instr.crternlogi 0 1 2 0x1B 0).wellFormed = false := by decide
/-- 30 R66 -/
theorem test_wellFormed_refuses_crbinlog_mask_zero : (Instr.crbinlog 0 1 6 0 0).wellFormed = false := by decide
/-- 30 R67 -/
theorem test_wellFormed_refuses_crbinlog_reserved_bit : (Instr.crbinlog 0 1 6 0b1111 1).wellFormed = false := by decide
/-- 30 R56 -/
theorem test_wellFormed_accepts_each_instruction :
    (Instr.ternlogi 31 0 17 0xA5).wellFormed ∧ (Instr.ternlogiRc 31 0 17 0xA5).wellFormed ∧
    (Instr.crternlogi 7 6 5 0xA5 0b1001).wellFormed ∧ (Instr.binlog 31 0 17 9 true).wellFormed ∧
    (Instr.crbinlog 7 6 5 0b1001 0).wellFormed := by decide

/-! ### Decoding and encoding -/

/-- V-E1, TLI-form: PO RT RA RB TLI XO Rc -/
theorem test_decode_ternlogi :
    decode .testParams 0b010110_00011_00100_00110_00011011_00_0#32 = .instr (.ternlogi 3 4 6 0x1B) := by decide
/-- 95 section 3.1, V-E3 -/
theorem test_decode_ternlogiRc :
    decode .testParams 0b010110_11111_00000_10001_10100101_00_1#32 = .instr (.ternlogiRc 31 0 17 0xA5) := by decide
/-- 95 section 3.1, V-E5, CRB-form: PO BF msk BFA msk BFB TLI[5:6] TLI[0:4] XO TLI[7] -/
theorem test_decode_crternlogi :
    decode .testParams 0b010110_111_10_110_01_101_10_10100_00001_1#32 = .instr (.crternlogi 7 6 5 0xA5 0b1001) := by
  decide
/-- 95 section 3.1, V-E14, VA-form: PO RT RA RB RC nh XO -/
theorem test_decode_binlog :
    decode .testParams 0b010110_11111_00000_10001_01001_1_00110#32 = .instr (.binlog 31 0 17 9 true) := by decide
/-- 95 section 3.1, V-E15, CRB-form second row -/
theorem test_decode_crbinlog :
    decode .testParams 0b010110_111_10_110_01_101_0000000_00010_0#32 = .instr (.crbinlog 7 6 5 0b1001 0) := by decide
/-- V-E6, V-E7, V-E8: one piece of the split TLI at a time -/
theorem test_decode_crternlogi_table_pieces :
    decode .testParams 0x58674003 = .instr (.crternlogi 0 1 2 0x01 0b1111) ∧
    decode .testParams 0x58675802 = .instr (.crternlogi 0 1 2 0x06 0b1111) ∧
    decode .testParams 0x586747C2 = .instr (.crternlogi 0 1 2 0xF8 0b1111) := by decide
/-- V-E9, V-E10: one piece of the split msk at a time -/
theorem test_decode_crternlogi_mask_pieces :
    decode .testParams 0x584448C3 = .instr (.crternlogi 0 1 2 0x1B 0b1000) ∧
    decode .testParams 0x580548C3 = .instr (.crternlogi 0 1 2 0x1B 0b0001) := by decide
/-- V-E4, V-E21: operand bits that lie inside another form's XO -/
theorem test_decode_operand_bits_inside_other_forms :
    decode .testParams 0x580007F8 = .instr (.ternlogi 0 0 0 0xFF) ∧
    decode .testParams 0x58000026 = .instr (.binlog 0 0 0 0 true) := by decide
/-- V-E20, V-E22, V-E23 -/
theorem test_decode_rejects_foreign_words :
    decode .testParams 0x58000007 = .rejected .wordOutsideSpec ∧
    decode .testParams 0x5C000002 = .rejected .wordOutsideSpec ∧
    decode .testParams 0x00000000 = .rejected .wordOutsideSpec := by decide
/-- 30 R65: opcode numbers that make two rows overlap -/
theorem test_decode_rejects_overlapping_rows :
    decode { OpcodeParams.testParams with xoCrbinlog := 0b00001 } 0x58674003 = .rejected .ambiguousOpcode := by decide
/-- 95, the fixture keeps the constraint of 30 R65 -/
theorem test_testParams_valid : OpcodeParams.testParams.valid = true := by decide
/-- 30 R65: a pair that does not keep it -/
theorem test_overlap_not_valid : { OpcodeParams.testParams with xoCrbinlog := 0b00001 }.valid = false := by decide
/-- TESTPARAMS words of V-T13, V-R1, V-C15, V-B2, V-D17 -/
theorem test_encode_each_instruction :
    encode .testParams (.ternlogi 3 4 6 0x1B) = 0x586430D8 ∧ encode .testParams (.ternlogiRc 3 4 6 0x7F) = 0x586433F9 ∧
    encode .testParams (.crternlogi 5 6 7 0x7F 0b1010) = 0x5ADAFBC3 ∧
    encode .testParams (.binlog 3 4 5 7 true) = 0x586429E6 ∧
    encode .testParams (.crbinlog 4 5 6 0b1100 0) = 0x5A74C004 := by decide
/-- 20 R42: the bytes of V-E1 in both orders -/
theorem test_decode_bytes :
    decodeBytes .big .testParams [0x58, 0x64, 0x30, 0xD8, 0xFF] = .decoded (.instr (.ternlogi 3 4 6 0x1B)) [0xFF] ∧
    decodeBytes .little .testParams [0xD8, 0x30, 0x64, 0x58] = .decoded (.instr (.ternlogi 3 4 6 0x1B)) [] ∧
    decodeBytes .big .testParams [0x58, 0x64, 0x30] = .truncatedWord := by decide
/-- V-E2, V-E13 through the host's numbering of bits -/
theorem test_decodeTableWord :
    decodeTableWord 32 0x586430D9 = some (.ternlogiRc 3 4 6 0x1B) ∧
    decodeTableWord 32 0x588429E6 = some (.binlog 4 4 5 7 true) ∧ decodeTableWord 32 0 = none := by decide
/-- 30 R72, R75 -/
theorem test_assemble :
    assemble .crternlogi [.num 7, .num 6, .num 5, .num 0xA5, .num 0b1001] = .instr (.crternlogi 7 6 5 0xA5 0b1001) ∧
    assemble .crternlogi [.num 7, .num 6, .num 5, .num 0xA5, .num 0] = .error .maskZero ∧
    assemble .binlog [.reg 32, .reg 0, .reg 0, .reg 0, .num 0] = .error .operandOutOfRange ∧
    assemble .ternlogi [.num 3, .reg 4, .reg 6, .num 1] = .error .operandKind := by decide

/-! ### The look-ups -/

/-- V-L3, V-L4, V-L12, V-L13 -/
theorem test_lookups_at_width_four :
    lut3 .msb0 0b00011011 0b0011#4 0b0101#4 0b0110#4 = 0b0101#4 ∧
    lut3 .msb0 0b11011000 0b0011#4 0b0101#4 0b0110#4 = 0b1100#4 ∧
    lut2 .msb0 0b0010 0b0011#4 0b0101#4 = 0b0010#4 ∧ lut2 .msb0 0b0100 0b0011#4 0b0101#4 = 0b0100#4 := by decide

/-! ### The instructions -/

/-- V-T35, and the value under the rejected lsb0 -/
theorem test_ternlogi_mux :
    gprAfter (.ternlogi 3 4 6 0x1B) (st [(3, T), (4, A), (6, B)]) 3 = some 0x5B291F6F88AEE84F ∧
    gprAfter (.ternlogi 3 4 6 0x1B)
      { st [(3, T), (4, A), (6, B)] with config := { Config.launch with lutOrder := .lsb0 } } 3 =
        some 0x7B581B1834042A52 := by decide
/-- V-T45 (RT = RB), V-T51 (register 0 is ordinary) -/
theorem test_ternlogi_coinciding_registers :
    gprAfter (.ternlogi 3 4 3 0x1B) (st [(3, T), (4, A)]) 3 = some 0x0021046788AAC00D ∧
    gprAfter (.ternlogi 0 31 17 0x69) (st [(0, T), (31, A), (17, B)]) 0 = some 0x85D4A1D2E6F09847 := by decide
/-- V-R6 -/
theorem test_ternlogiRc_negative :
    gprAfter (.ternlogiRc 3 4 6 0xFF) (st [(3, T), (4, A), (6, B)] 0x350FAC69 true) 3 = some 0xFFFFFFFFFFFFFFFF ∧
    crAfter (.ternlogiRc 3 4 6 0xFF) (st [(3, T), (4, A), (6, B)] 0x350FAC69 true) = some 0x950FAC69 := by decide
/-- V-R12, and what 95 section 2.2 says a 32-bit comparison would report -/
theorem test_ternlogiRc_mode :
    crAfter (.ternlogiRc 3 4 6 0x0F) (st [(3, 0xFFFFFFFF00000000)] 0xFFFFFFFF true) = some 0x9FFFFFFF ∧
    crAfter (.ternlogiRc 3 4 6 0x0F)
      { st [(3, 0xFFFFFFFF00000000)] 0xFFFFFFFF true with config := { Config.launch with mode64 := false } } =
        some 0x3FFFFFFF := by decide
/-- V-C8, V-C12, V-C22 -/
theorem test_crternlogi_masked :
    crAfter (.crternlogi 0 1 4 0x69 0b1000) (st [] 0x350FAC69) = some 0xB50FAC69 ∧
    crAfter (.crternlogi 0 1 4 0x69 0b0110) (st [] 0x350FAC69) = some 0x550FAC69 ∧
    crAfter (.crternlogi 7 7 3 0x55 0b1111) (st [] 0x350FAC69) = some 0x350FAC6F := by decide
/-- V-C24 -/
theorem test_crternlogi_trap :
    faultOf (exec (.crternlogi 0 1 2 0x1B 0) (st [] 0x350FAC69)) = some (.illegalInstruction 0x580448C3 0) := by decide
/-- V-B24, V-B31 -/
theorem test_binlog_nibbles :
    gprAfter (.binlog 3 4 5 7 true) (st [(4, A), (5, B), (7, 0x60)]) 3 = some 0x84F7E4B56F5B55A8 ∧
    gprAfter (.binlog 31 0 31 9 false) (st [(0, A), (31, B), (9, 2)]) 31 = some 0x84A5A4A54A5A5008 := by decide
/-- V-B25 (RT = RC) -/
theorem test_binlog_table_overwritten :
    gprAfter (.binlog 7 4 5 7 false) (st [(4, A), (5, B), (7, 6)]) 7 = some 0x84F7E4B56F5B55A8 := by decide
/-- V-D9, V-D17, V-D20 -/
theorem test_crbinlog_masked :
    crAfter (.crbinlog 1 0 4 0b1111 0) (st [] 0x350FAC69) = some 0x3C0FAC69 ∧
    crAfter (.crbinlog 4 5 6 0b1100 0) (st [] 0x350FAC69) = some 0x350F6C69 ∧
    crAfter (.crbinlog 7 6 5 0b1001 0) (st [] 0x350FAC69) = some 0x350FAC60 := by decide
/-- V-D21 -/
theorem test_crbinlog_trap :
    faultOf (exec (.crbinlog 0 1 6 0 0) (st [] 0x350FAC69)) = some (.illegalInstruction 0x5804C004 0) := by decide

/-! ### The step -/

/-- V-E17, and V-D1 under `ignore` -/
theorem test_step_reserved_bit :
    refusalOf (step (textState [0x5867C005])) = some (.reservedBitsSet 0x5867C005) ∧
    (nextOf (step { textState [0x5867C005] with
      config := { withText Config.launch 0x4000 [0x5867C005] with reservedNonzero := .ignore } })).map (·.cr) =
        some 0x650FAC69 := by decide
/-- V-E19: the `msk` test comes first (60 R123); the record holds the word with its reserved bit -/
theorem test_step_mask_before_reserved :
    faultOf (step (textState [0x5804C044])) = some (.illegalInstruction 0x5804C044 0x4000) := by decide
/-- V-E23 (30 R68); 70 R145; 20 R44 -/
theorem test_step_stops :
    refusalOf (step (textState [0])) = some (.wordOutsideSpec 0) ∧ refusalOf (step (textState [])) = some .endOfText ∧
    faultOf (step { textState [0] with pc := 0x3FFC }) = some (.fetchOutsideText 0x3FFC) := by decide
/-- The word of V-E1 placed at launch is run by the next step (V-T13's word) -/
theorem test_withFetchWord_at_reset :
    (nextOf (step (State.reset.withFetchWord 32 0x586430D8))).map (·.pc) = some 4 := by decide

/-! ### The run of a program -/

/-- 70 R145: a word that is none of the five refuses the whole program, after a trapping word too -/
theorem test_program_with_foreign_word_refused :
    runProgram (textState [0x586430D8, 0x58000007]) = .refused (.wordOutsideSpec 0x58000007) ∧
    runProgram (textState [0x580448C3, 0x58000007]) = .refused (.wordOutsideSpec 0x58000007) ∧
    faultOf (run 2 (textState [0x580448C3, 0x58000007])) = some (.illegalInstruction 0x580448C3 0x4000) := by decide
/-- 70 R145, 60 R123 (V-E17, V-E19): a reserved bit refuses the program, but not where `msk` is 0 -/
theorem test_program_with_reserved_bit :
    runProgram (textState [0x586430D8, 0x5867C005]) = .refused (.reservedBitsSet 0x5867C005) ∧
    runProgram (textState [0x586430D8, 0x5804C044]) = .faulted (.illegalInstruction 0x5804C044 0x4004) := by decide
/-- 70 R145 (a): the state after the last word, and that of a program of no words -/
theorem test_program_normal_end :
    runProgram (textState [0x5867C004]) =
      .normalEnd { textState [0x5867C004] with cr := 0x650FAC69, pc := 0x4004 } ∧
    runProgram State.reset = .normalEnd State.reset := by decide

/-! ### Witnesses: for each statement with hypotheses, a state and operands that meet them all; for each clause of a
statement with several, one at a boundary of its range. -/

/-- OpcodeRows…, DecodeFollows…, DecodeInvertsEncode: lawful opcode numbers, a word a row selects, a word none does -/
theorem witness_valid_selected_and_not :
    OpcodeParams.testParams.valid = true ∧ rowSelects .testParams 0x586430D8 .ternlogi = true ∧
    ∀ m, rowSelects .testParams 0x58000007 m = false :=
  ⟨by decide, by decide, fun m => by cases m <;> decide⟩

/-- EncodeInvertsDecode, TernlogiTable…, OperandFields…: one decoded word for each row (all-one operands; with a
reserved bit) -/
theorem witness_decoded_words :
    decode .testParams 0x5BFFFFF8 = .instr (.ternlogi 31 31 31 255) ∧
    decode .testParams 0x5BFFFFF9 = .instr (.ternlogiRc 31 31 31 255) ∧
    decode .testParams 0x5BFFFFC3 = .instr (.crternlogi 7 7 7 255 15) ∧
    decode .testParams 0x5BFFFFE6 = .instr (.binlog 31 31 31 31 true) ∧
    decode .testParams 0x5BFFE004 = .instr (.crbinlog 7 7 7 15 0) ∧
    decode .testParams 0x5867C005 = .instr (.crbinlog 0 1 6 15 1) := by decide

/-- AssemblerAccepts…: both directions -/
theorem witness_assembled :
    (Instr.crbinlog 7 0 7 15 0).wellFormed = true ∧
    assemble .crbinlog [.num 7, .num 0, .num 7, .num 15] = .instr (.crbinlog 7 0 7 15 0) := by decide

/-- Lut3Picks…, Lut2Picks…: the first and last positions; IndexOrders…: a palindromic table -/
theorem witness_lookup_positions : 0 < 1 ∧ 63 < 64 ∧ (0b01111110 : Table8).reverse = 0b01111110 := by decide

/-- Crternlogi…, Crbinlog…: a zero and a non-zero mask; a selected bit and an unselected one at each end of the CR -/
theorem witness_masks :
    (0b1001#4 ≠ 0#4) ∧ (0b1001#4).getMsbD 0 = true ∧ (0b1001#4).getMsbD 3 = true ∧
    (∀ i < 4, 33 = 4 * (0 : CrNum).toNat + 32 + i → (0b1001#4).getMsbD i = false) ∧
    (∀ i < 4, 62 = 4 * (7 : CrNum).toNat + 32 + i → (0b1001#4).getMsbD i = false) ∧
    (∀ i < 4, 36 = 4 * (0 : CrNum).toNat + 32 + i → (0b1001#4).getMsbD i = false) := by
  refine ⟨by decide, by decide, by decide, ?_, ?_, ?_⟩ <;>
  · intro i hi h
    interval_cases i <;> first | decide | simp at h

/-- CrbinlogReservedBits…: each policy, each mask -/
theorem witness_reserved_policies :
    (1#8 ≠ 0#8) ∧ (1#4 ≠ 0#4) ∧ State.reset.config.reservedNonzero = .refuse ∧
    { Config.launch with reservedNonzero := .ignore }.reservedNonzero = .ignore := by decide

/-- MaskedCrWrite…: a CR bit just outside each end of a field -/
theorem witness_bits_beside_a_field :
    (32 ≤ 35 ∧ 35 ≤ 63 ∧ 35 < 4 * (1 : CrNum).toNat + 32) ∧ (32 ≤ 40 ∧ 40 ≤ 63 ∧ 4 * (1 : CrNum).toNat + 35 < 40) := by
  decide

/-- RecordedCr0…, GprAccess…, CrAccess…, ModeAffects…, ExecutionIs…: `exec` goes on, with SO 0 and with SO 1 -/
theorem witness_exec_next (so : Bool) :
    ∃ t, exec (.ternlogiRc 3 4 6 0x1B) (st [(3, T)] 0 so) = .next t := ⟨_, rfl⟩

/-- GprAccess…, CrAccess…: `exec` goes on for the other forms; a selected bit at each end of the mask -/
theorem witness_exec_next_forms :
    (∃ t, exec (.ternlogi 31 0 31 0x1B) (st []) = .next t) ∧ (∃ t, exec (.binlog 31 0 31 9 false) (st []) = .next t) ∧
    (∃ t, exec (.crternlogi 7 0 7 0x1B 0b1001) (st []) = .next t) ∧
    (∃ t, exec (.crbinlog 7 0 7 0b1001 0) (st []) = .next t) :=
  ⟨⟨_, rfl⟩, ⟨_, rfl⟩, ⟨_, rfl⟩, ⟨_, rfl⟩⟩

/-- GprAccess…: a state that differs in a GPR `binlog` does not read -/
theorem witness_unread_gpr :
    (∀ r ∈ gprReads (.binlog 3 4 5 7 true), (st [(3, A), (7, B)]).readGpr r = (st [(3, T), (7, B)]).readGpr r) ∧
    (st [(3, A), (7, B)]).readGpr 3 ≠ (st [(3, T), (7, B)]).readGpr 3 ∧
    (st [(3, A), (7, B)]).cr = (st [(3, T), (7, B)]).cr ∧ (st [(3, A), (7, B)]).so = (st [(3, T), (7, B)]).so ∧
    (st [(3, A), (7, B)]).pc = (st [(3, T), (7, B)]).pc ∧
    (st [(3, A), (7, B)]).config = (st [(3, T), (7, B)]).config := by decide

/-- CrAccess…: a state that differs in a CR Field `crbinlog` does not read -/
theorem witness_unread_field :
    (∀ n ∈ crReads (.crbinlog 0 1 6 0b1111 0), (st [] 0x350FAC69).readCrField n = (st [] 0x35FFAC69).readCrField n) ∧
    (st [] 0x350FAC69).cr ≠ (st [] 0x35FFAC69).cr ∧ (∃ t, exec (.crbinlog 0 1 6 0b1111 0) (st [] 0x350FAC69) = .next t) :=
  ⟨by decide, by decide, _, rfl⟩

/-- ModeAffects…, ExecutionIs…: two states that differ in the mode, and in the pc and the text -/
theorem witness_other_configurations :
    { Config.launch with mode64 := false }.lutOrder = Config.launch.lutOrder ∧
    (textState [0]).config.mode64 = State.reset.config.mode64 ∧ (textState [0]).pc ≠ State.reset.pc ∧
    (textState [0]).gpr = State.reset.gpr := by decide

/-- Table33…: the spec's index order -/
theorem witness_msb0 : State.reset.config.lutOrder = .msb0 := rfl

/-- TrapExactly…: a decoded word whose mask bits are zero, and one whose mask bits are not -/
theorem witness_trap_words :
    decode State.reset.config.opcodes 0x580448C3 = .instr (.crternlogi 0 1 2 0x1B 0) ∧
    decode State.reset.config.opcodes 0x5804C004 = .instr (.crbinlog 0 1 6 0 0) ∧
    decode State.reset.config.opcodes 0x5867C004 = .instr (.crbinlog 0 1 6 0b1111 0) := by decide

/-- TrapRecords…: a fetched word that traps, for each of the two instructions -/
theorem witness_trapping_fetches :
    (textState [0x580448C3]).fetch = .word 0x580448C3 ∧ trappingWord (textState [0x580448C3]).config 0x580448C3 ∧
    (textState [0x5804C044]).fetch = .word 0x5804C044 ∧ trappingWord (textState [0x5804C044]).config 0x5804C044 :=
  ⟨by decide, .inl ⟨0, 1, 2, 0x1B, by decide⟩, by decide, .inr ⟨0, 1, 6, 2, by decide⟩⟩

/-- StepRuns…, StepKeepsSo…: a fetched word that decodes and is run -/
theorem witness_step :
    (textState [0x586430D8]).fetch = .word 0x586430D8 ∧
    decode (textState [0x586430D8]).config.opcodes 0x586430D8 = .instr (.ternlogi 3 4 6 0x1B) ∧
    (nextOf (step (textState [0x586430D8]))).isSome = true := by decide

/-- ForeignWord…: a fetched word that no row selects -/
theorem witness_foreign_word :
    (textState [0x58000007]).fetch = .word 0x58000007 ∧
    ∀ m, rowSelects (textState [0x58000007]).config.opcodes 0x58000007 m = false :=
  ⟨by decide, fun m => by cases m <;> decide⟩

/-- A lawful configuration whose text ends at the top of the address space -/
theorem witness_lawful : lawfulConfig (textState [0, 1] 0xFFFFFFFFFFFFFFF8).config := by
  unfold lawfulConfig
  decide

/-- FetchReads…: the pc at the last word, at the end, and at no word (between words; above the end) -/
theorem witness_fetch_addresses :
    (textState [0, 1]).config.text[1]? = some 1#32 ∧
    { textState [0, 1] with pc := 0x4004 }.pc = (textState [0, 1]).config.textBase + BitVec.ofNat 64 (4 * 1) ∧
    4 * (textState [0, 1]).config.text.length < 2 ^ 64 ∧
    { textState [0, 1] with pc := 0x4008 }.pc = (textState [0, 1]).config.textBase + BitVec.ofNat 64 (4 * 2) ∧
    (∀ k, k ≤ 2 → (0x4002 : Dword) ≠ 0x4000 + BitVec.ofNat 64 (4 * k)) ∧
    (∀ k, k ≤ 2 → (0x400C : Dword) ≠ 0x4000 + BitVec.ofNat 64 (4 * k)) := by
  refine ⟨by decide, by decide, by decide, by decide, ?_, ?_⟩ <;>
  · intro k hk
    interval_cases k <;> decide

/-- StepKeepsTheRunInvariant: a state with the invariant whose step goes on -/
theorem witness_invariant :
    (textState [0x586430D8]).inv ∧ (nextOf (step (textState [0x586430D8]))).isSome = true :=
  ⟨⟨by unfold lawfulConfig; decide, 0, by decide, by decide⟩, by decide⟩

/-- StraightLine…: a text of two words that complete -/
theorem witness_runnable_text :
    (textState [0x586430D8, 0x5867C004]).pc = (textState [0x586430D8, 0x5867C004]).config.textBase ∧
    ∀ w ∈ (textState [0x586430D8, 0x5867C004]).config.text, runnableWord (textState [0x586430D8, 0x5867C004]).config w := by
  refine ⟨by decide, fun w hw => ?_⟩
  have hw' : w = 0x586430D8 ∨ w = 0x5867C004 := by simpa [textState] using hw
  rcases hw' with rfl | rfl
  · exact ⟨.ternlogi 3 4 6 0x1B, by decide, by decide⟩
  · exact ⟨.crbinlog 0 1 6 0b1111 0, by decide, by decide⟩

/-- RunStops…: a text whose second word traps -/
theorem witness_trapping_text :
    (textState [0x586430D8, 0x580448C3]).config.text[1]? = some 0x580448C3#32 ∧
    trappingWord (textState [0x586430D8, 0x580448C3]).config 0x580448C3 ∧
    runnableWord (textState [0x586430D8, 0x580448C3]).config 0x586430D8 ∧
    programRefusal (textState [0x586430D8, 0x580448C3]).config = none :=
  ⟨by decide, .inl ⟨0, 1, 2, 0x1B, by decide⟩, ⟨.ternlogi 3 4 6 0x1B, by decide, by decide⟩, by decide⟩

/-- ProgramEnds…: a lawful text at launch with a word of each kind that is refused, beside one that traps -/
theorem witness_refused_text :
    lawfulConfig (textState [0x580448C3, 0x58000007, 0x5867C005]).config ∧
    (textState [0x580448C3, 0x58000007, 0x5867C005]).pc =
      (textState [0x580448C3, 0x58000007, 0x5867C005]).config.textBase ∧
    trappingWord (textState [0x580448C3, 0x58000007, 0x5867C005]).config 0x580448C3 ∧
    refusedWord (textState [0x580448C3, 0x58000007, 0x5867C005]).config 0x58000007 ∧
    refusedWord (textState [0x580448C3, 0x58000007, 0x5867C005]).config 0x5867C005 :=
  ⟨by unfold lawfulConfig; decide, by decide, .inl ⟨0, 1, 2, 0x1B, by decide⟩, .inl fun m => by cases m <;> decide,
    .inr ⟨0, 1, 6, 0b1111, 1, by decide, by decide, by decide, by decide⟩⟩

/-- TextTest…: a fetched word that is refused, and one that is not -/
theorem witness_refusal_of_fetched_words :
    (textState [0x58000007]).fetch = .word 0x58000007 ∧
    refusalOfWord (textState [0x58000007]).config 0x58000007 = some (.wordOutsideSpec 0x58000007) ∧
    (textState [0x586430D8]).fetch = .word 0x586430D8 ∧
    refusalOfWord (textState [0x586430D8]).config 0x586430D8 = none := by decide

/-- TextBytes…: the first and the last byte of the region, and addresses just outside it (20 R42, R44; V-E1's bytes) -/
theorem witness_text_bytes :
    (textState [0x586430D8]).readByte 0x4000 = some 0x58 ∧ (textState [0x586430D8]).readByte 0x4003 = some 0xD8 ∧
    (textState [0x586430D8]).readByte 0x4004 = none ∧ (textState [0x586430D8]).readByte 0x3FFF = none ∧
    { textState [0x586430D8] with
      config := { withText Config.launch 0x4000 [0x586430D8] with insnByteOrder := .little } }.readByte 0x4000 =
        some 0xD8 := by decide

/-- Loading…: bytes from outside become the text (20 R42) -/
theorem witness_load :
    ((State.reset.loadBytes 0x1000 [0x58, 0x64, 0x30, 0xD8]).map (·.config.text)) = some [0x586430D8] ∧
    State.reset.loadBytes 0x1000 [0x58] = none := by decide

end Sys2Proof.Tests
end

section
/-! Fields of a decoded word, and the immediate table of the TLI-form (30 R57 to R63). -/

namespace Sys2Proof

/-- A field as an integer is a shift and a mask of its word, as 30 R57 to R62 write it. -/
theorem toNat_slice {n : Nat} (v : BitVec n) (a b : Nat) :
    (slice v a b).toNat = (v.toNat >>> (n - 1 - b)) &&& (2 ^ (b - a + 1) - 1) := by
  rw [slice, BitVec.extractLsb'_toNat, Nat.and_two_pow_sub_one_eq_mod]

/-- A decoded instruction is its own row's reading of the word. -/
theorem eq_decodeFields_mnemonic {p : OpcodeParams} {w : Word} {i : Instr} (h : decode p w = .instr i) :
    i = decodeFields i.mnemonic w := by
  obtain ⟨m, -, rfl⟩ := decode_eq_instr h
  rw [mnemonic_decodeFields]

/-- The TLI-form rows, with Rc 0 and 1, read their immediate from bits 21:28 (30 R60). -/
theorem ternlogi_table_eq_slice {p : OpcodeParams} {w : Word} {rt ra rb : GprNum} {tli : Table8}
    (h : decode p w = .instr (.ternlogi rt ra rb tli) ∨ decode p w = .instr (.ternlogiRc rt ra rb tli)) :
    tli = slice w 21 28 := by
  obtain h | h := h
  · exact (Instr.ternlogi.inj (eq_decodeFields_mnemonic h)).2.2.2
  · exact (Instr.ternlogiRc.inj (eq_decodeFields_mnemonic h)).2.2.2

/-- Settles O7: the immediate is the slice 21:28 of the word, read as a shift and mask and bit by bit. -/
theorem ternlogiTableIsBits21To28 : Obligations.TernlogiTableIsBits21To28 := by
  intro p w rt ra rb tli h
  have htli := ternlogi_table_eq_slice h
  subst htli
  exact ⟨toNat_slice w 21 28, fun j hj => getMsbD_slice w (by decide) (by decide) (Nat.le_of_lt_succ hj)⟩

end Sys2Proof
end

section
/-! The masked CR-field write, bit by bit (41 R85). -/

namespace Sys2Proof.Machine

/-- Inside the written field the mask chooses, bit by bit, between the value and the old bit. -/
theorem fieldBit_writeCrMasked (s : State) (bf : CrNum) (val msk : Nibble) {i : Nat} (hi : i < 4) :
    fieldBit (s.writeCrMasked bf val msk) bf i =
      if msk.getMsbD i = true then val.getMsbD i else fieldBit s bf i := by
  have hbf := bf.isLt
  have hin : 4 * bf.toNat + 32 ≤ 4 * bf.toNat + 32 + i ∧ 4 * bf.toNat + 32 + i ≤ 4 * bf.toNat + 35 := by omega
  rw [fieldBit, crBit_writeCrMasked s bf val msk (by omega) (by omega), Nat.add_sub_cancel_left]
  simp only [hin, and_self, true_and, fieldBit]

/-- No CR bit outside the written field changes, whatever the mask. -/
theorem crBit_writeCrMasked_of_outside (s : State) (bf : CrNum) (val msk : Nibble) {k : Nat}
    (h1 : 32 ≤ k) (h2 : k ≤ 63) (hout : k < 4 * bf.toNat + 32 ∨ 4 * bf.toNat + 35 < k) :
    (s.writeCrMasked bf val msk).crBit k = s.crBit k := by
  rw [crBit_writeCrMasked s bf val msk h1 h2, if_neg]
  rintro ⟨⟨hlo, hhi⟩, -⟩
  omega

/-- Settles O22: the bits of the field and those outside it from the two lemmas above; the rest by the frame laws of
the masked write. -/
theorem maskedCrWriteChangesTheSelectedBits : Obligations.MaskedCrWriteChangesTheSelectedBits := by
  intro s bf val msk
  exact ⟨fun _ => fieldBit_writeCrMasked s bf val msk,
    fun _ => crBit_writeCrMasked_of_outside s bf val msk,
    writeCrMasked_gpr s bf val msk, writeCrMasked_so s bf val msk,
    writeCrMasked_pc s bf val msk, writeCrMasked_config s bf val msk⟩

end Sys2Proof.Machine
end

section
/-! The write mask as bits of the word, and the trap a zero mask raises (30 R59, 60 R120). -/

namespace Sys2Proof

/-- A field is zero when every bit of its word from `a` to `b` is (00 R11). -/
theorem slice_eq_zero_iff {n : Nat} (v : BitVec n) {a b : Nat} (hab : a ≤ b) (hb : b < n) :
    slice v a b = 0#(b - a + 1) ↔ ∀ i ≤ b - a, v.getMsbD (a + i) = false := by
  constructor
  · intro h i hi
    rw [← getMsbD_slice v hab hb hi, h, BitVec.getMsbD_zero]
  · intro h
    refine BitVec.eq_of_getMsbD_eq fun i hi => ?_
    rw [getMsbD_slice v hab hb (Nat.le_of_lt_succ hi), h i (Nat.le_of_lt_succ hi), BitVec.getMsbD_zero]

/-- The mask of a CR instruction is zero when the four bits of its two pieces are (30 R59). -/
theorem maskField_eq_zero_iff (w : Word) :
    maskField w = 0#4 ↔ w.getMsbD 9 = false ∧ w.getMsbD 10 = false ∧ w.getMsbD 14 = false ∧ w.getMsbD 15 = false := by
  have hpieces : maskField w = 0#4 ↔ slice w 9 10 = 0#2 ∧ slice w 14 15 = 0#2 := by
    rw [maskField]
    generalize slice w 9 10 = x
    generalize slice w 14 15 = y
    revert x y
    decide
  rw [hpieces, slice_eq_zero_iff w (by decide) (by decide), slice_eq_zero_iff w (by decide) (by decide)]
  simp [Nat.le_one_iff_eq_zero_or_eq_one, and_assoc]

/-- A CR instruction whose mask is zero, whatever its other operands: the operands of 60 R120. -/
def Instr.ZeroMask (i : Instr) : Prop :=
  (∃ bf bfa bfb tli, i = .crternlogi bf bfa bfb tli 0#4) ∨ (∃ bf bfa bfb rsv, i = .crbinlog bf bfa bfb 0#4 rsv)

/-- A row's reading of a word has a zero mask exactly when the row is a CR one and the word's mask field is zero; the
other rows have no mask. -/
theorem zeroMask_decodeFields_iff (m : Mnemonic) (w : Word) :
    (decodeFields m w).ZeroMask ↔ (m = .crternlogi ∨ m = .crbinlog) ∧ maskField w = 0#4 := by
  cases m <;> simp [Instr.ZeroMask, decodeFields]

end Sys2Proof

namespace Sys2Proof.Machine

/-- The one fault of an instruction: the trap of a zero mask, in every state (60 R120, R121). -/
theorem exec_eq_fault_iff {i : Instr} {s : State} {f : Fault} :
    exec i s = .fault f ↔ i.ZeroMask ∧ f = .illegalInstruction (encode s.config.opcodes i) s.pc := by
  constructor
  · intro h
    rcases exec_cases i s with ⟨t, ht, -⟩ | ⟨hf, hz⟩ | ⟨_, _, _, _, _, -, -, -, -, hr⟩
    · simp [ht] at h
    · rw [hf] at h
      cases h
      exact ⟨hz, rfl⟩
    · simp [hr] at h
  · rintro ⟨⟨bf, bfa, bfb, tli, rfl⟩ | ⟨bf, bfa, bfb, rsv, rfl⟩, rfl⟩
    · exact exec_crternlogi_trap bf bfa bfb tli s
    · exact exec_crbinlog_trap bf bfa bfb rsv s

/-- An instruction faults in a state exactly when it is a CR one with a zero mask. -/
theorem exec_faults_iff_zeroMask (i : Instr) (s : State) : (∃ f, exec i s = .fault f) ↔ i.ZeroMask := by
  simp only [exec_eq_fault_iff, exists_and_left, exists_eq, and_true]

/-- Settles O25: the fault is that of a zero mask, and the mask of the decoded instruction is the word's mask field. -/
theorem trapExactlyWhenTheMaskBitsAreZero : Obligations.TrapExactlyWhenTheMaskBitsAreZero := by
  intro s w i h
  obtain ⟨m, -, rfl⟩ := decode_eq_instr h
  constructor
  · rw [exec_faults_iff_zeroMask, zeroMask_decodeFields_iff, maskField_eq_zero_iff, mnemonic_decodeFields]
  · intro f hf
    exact ⟨_, _, (exec_eq_fault_iff.1 hf).2⟩

end Sys2Proof.Machine
end

section
/-! Rows, words and operands: the decoder against the encoder, and the fields of a word (30_encoding.md). -/

namespace Sys2Proof

/-- The word of an instruction is selected by the instruction's row and reads back as it, for every instruction. -/
theorem encode_selects (i : Instr) : Laws.EncodeSelects.Statement i := by
  cases i with
  | ternlogi rt ra rb tli => exact Laws.EncodeSelects.ternlogi rt ra rb tli
  | ternlogiRc rt ra rb tli => exact Laws.EncodeSelects.ternlogiRc rt ra rb tli
  | crternlogi bf bfa bfb tli msk => exact Laws.EncodeSelects.crternlogi bf bfa bfb tli msk
  | binlog rt ra rb rc nh => exact Laws.EncodeSelects.binlog rt ra rb rc nh
  | crbinlog bf bfa bfb msk rsv => exact Laws.EncodeSelects.crbinlog bf bfa bfb msk rsv

/-- Settles O4: the row of the instruction selects its word, so under lawful opcode numbers the decoder answers that
row's reading, which is the instruction. -/
theorem decodeInvertsEncode : Obligations.DecodeInvertsEncode := by
  intro p i hp
  obtain ⟨hsel, hread⟩ := encode_selects i p
  rw [decode_of_selects hp hsel, hread]

/-- A word that no row selects is rejected as outside the spec (30 R68), whatever the opcode numbers. -/
theorem decode_of_no_row {p : OpcodeParams} {w : Word} (h : ∀ m, rowSelects p w m = false) :
    decode p w = .rejected .wordOutsideSpec := by
  have hnone : allRows.filter (rowSelects p w) = [] := List.filter_eq_nil_iff.2 fun m _ => by simp [h m]
  simp [decode, hnone]

/-- Settles O3: uniqueness and the selected row's reading are the decoder's laws; with no row the filter is empty. -/
theorem decodeFollowsTheOneSelectedRow : Obligations.DecodeFollowsTheOneSelectedRow := by
  intro p w hp
  exact ⟨fun _ _ => selects_unique hp, fun _ => decode_of_selects hp, decode_of_no_row⟩

/-- The bits a TLI-form row looks at, as fields at their places (30 R51, R65). -/
theorem and_tliForm_mask (w : Word) :
    w &&& 0xFC000007#32 = slice w 0 5 ++ 0#23 ++ slice w 29 30 ++ slice w 31 31 := by
  refine BitVec.eq_of_getLsbD_eq fun i hi => ?_
  simp only [slice, BitVec.getLsbD_and, BitVec.getLsbD_append, BitVec.getLsbD_extractLsb']
  interval_cases i <;> simp

/-- The bits a CRB-form row looks at, as fields at their places (30 R53, R65). -/
theorem and_crbForm_mask (w : Word) : w &&& 0xFC00003E#32 = slice w 0 5 ++ 0#20 ++ slice w 26 30 ++ 0#1 := by
  refine BitVec.eq_of_getLsbD_eq fun i hi => ?_
  simp only [slice, BitVec.getLsbD_and, BitVec.getLsbD_append, BitVec.getLsbD_extractLsb']
  interval_cases i <;> simp

/-- The bits the VA-form row looks at, as fields at their places (30 R52, R65). -/
theorem and_vaForm_mask (w : Word) : w &&& 0xFC00001F#32 = slice w 0 5 ++ 0#21 ++ slice w 27 31 := by
  refine BitVec.eq_of_getLsbD_eq fun i hi => ?_
  simp only [slice, BitVec.getLsbD_and, BitVec.getLsbD_append, BitVec.getLsbD_extractLsb']
  interval_cases i <;> simp


/-- Two words put together from fields of the same widths agree exactly field by field. -/
theorem append_eq_append_iff {m n : Nat} {x x' : BitVec m} {y y' : BitVec n} :
    x ++ y = x' ++ y' ↔ x = x' ∧ y = y' := by
  constructor
  · intro h
    have hx : x = x' := by
      rw [← BitVec.extractLsb'_append_eq_left (a := x) (b := y), h, BitVec.extractLsb'_append_eq_left]
    subst hx
    exact ⟨rfl, (BitVec.append_right_inj x).1 h⟩
  · rintro ⟨rfl, rfl⟩
    rfl

/-- The match of a TLI-form row, its numbers at their places and Rc at the end (30 R65). -/
theorem tliForm_match (po : BitVec 6) (xo : BitVec 2) (rc : Bool) :
    po.setWidth 32 <<< 26 ||| xo.setWidth 32 <<< 1 ||| (BitVec.ofBool rc).setWidth 32 =
      po ++ 0#23 ++ xo ++ BitVec.ofBool rc := by
  refine BitVec.eq_of_getLsbD_eq fun i hi => ?_
  simp only [BitVec.getLsbD_or, BitVec.getLsbD_append, BitVec.getLsbD_shiftLeft, BitVec.getLsbD_setWidth]
  interval_cases i <;> simp

/-- The match of a CRB-form row, its numbers at their places (30 R65). -/
theorem crbForm_match (po : BitVec 6) (xo : BitVec 5) :
    po.setWidth 32 <<< 26 ||| xo.setWidth 32 <<< 1 = po ++ 0#20 ++ xo ++ 0#1 := by
  refine BitVec.eq_of_getLsbD_eq fun i hi => ?_
  simp only [BitVec.getLsbD_or, BitVec.getLsbD_append, BitVec.getLsbD_shiftLeft, BitVec.getLsbD_setWidth]
  interval_cases i <;> simp

/-- The match of the VA-form row, its numbers at their places (30 R65). -/
theorem vaForm_match (po : BitVec 6) (xo : BitVec 5) :
    po.setWidth 32 <<< 26 ||| xo.setWidth 32 = po ++ 0#21 ++ xo := by
  refine BitVec.eq_of_getLsbD_eq fun i hi => ?_
  simp only [BitVec.getLsbD_or, BitVec.getLsbD_append, BitVec.getLsbD_shiftLeft, BitVec.getLsbD_setWidth]
  interval_cases i <;> simp

/-- The last field of a TLI-form word is the bit Rc (30 R51). -/
theorem slice_last (w : Word) : slice w 31 31 = BitVec.ofBool (w.getMsbD 31) := by
  refine BitVec.eq_of_getMsbD_eq fun i hi => ?_
  obtain rfl : i = 0 := by omega
  rw [getMsbD_slice w le_rfl (by decide) (Nat.zero_le _)]
  simp

/-- Which words the two TLI-form rows select, told apart by Rc (30 R65). -/
theorem tliForm_selects_iff (w : Word) (po : BitVec 6) (xo : BitVec 2) (rc : Bool) :
    w &&& 0xFC000007#32 = po.setWidth 32 <<< 26 ||| xo.setWidth 32 <<< 1 ||| (BitVec.ofBool rc).setWidth 32 ↔
      slice w 0 5 = po ∧ slice w 29 30 = xo ∧ w.getMsbD 31 = rc := by
  rw [and_tliForm_mask, tliForm_match, append_eq_append_iff, append_eq_append_iff, append_eq_append_iff, slice_last,
    BitVec.ofBool_eq_iff_eq]
  simp [and_assoc]

/-- Which words a CRB-form row selects (30 R65). -/
theorem crbForm_selects_iff (w : Word) (po : BitVec 6) (xo : BitVec 5) :
    w &&& 0xFC00003E#32 = po.setWidth 32 <<< 26 ||| xo.setWidth 32 <<< 1 ↔
      slice w 0 5 = po ∧ slice w 26 30 = xo := by
  rw [and_crbForm_mask, crbForm_match, append_eq_append_iff, append_eq_append_iff, append_eq_append_iff]
  simp

/-- Which words the VA-form row selects (30 R65). -/
theorem vaForm_selects_iff (w : Word) (po : BitVec 6) (xo : BitVec 5) :
    w &&& 0xFC00001F#32 = po.setWidth 32 <<< 26 ||| xo.setWidth 32 ↔ slice w 0 5 = po ∧ slice w 27 31 = xo := by
  rw [and_vaForm_mask, vaForm_match, append_eq_append_iff, append_eq_append_iff]
  simp

/-- Settles O2: a row's mask keeps the fields of its form, and its match is the row's numbers at those places. -/
theorem opcodeRowsSelectByTheirFields : Obligations.OpcodeRowsSelectByTheirFields := by
  intro p w
  refine ⟨?_, ?_, ?_, ?_, ?_⟩
  · rw [rowSelects_iff, ← tliForm_selects_iff w p.poTernlogi p.xoTernlogi false]
    simp [rowMask, rowMatch]
  · exact (rowSelects_iff p w _).trans (tliForm_selects_iff w p.poTernlogi p.xoTernlogi true)
  · exact (rowSelects_iff p w _).trans (crbForm_selects_iff w p.poCrternlogi p.xoCrternlogi)
  · exact (rowSelects_iff p w _).trans (vaForm_selects_iff w p.poBinlog p.xoBinlog)
  · exact (rowSelects_iff p w _).trans (crbForm_selects_iff w p.poCrbinlog p.xoCrbinlog)

/-- A selected row's reading is encoded as the word it was read from: the row's numbers and the operands name every bit
(30 R55). -/
theorem encode_decodeFields {p : OpcodeParams} {w : Word} {m : Mnemonic} (h : rowSelects p w m = true) :
    encode p (decodeFields m w) = w := by
  obtain ⟨hternlogi, hternlogiRc, hcrternlogi, hbinlog, hcrbinlog⟩ := opcodeRowsSelectByTheirFields p w
  cases m with
  | ternlogi =>
    obtain ⟨hpo, hxo, hrc⟩ := hternlogi.1 h
    have hlast : w[0] = false := hrc
    refine BitVec.eq_of_getLsbD_eq fun i hi => ?_
    simp only [encode, decodeFields, ← hpo, ← hxo, slice, BitVec.getLsbD_append, BitVec.getLsbD_extractLsb']
    interval_cases i <;> simp [hlast]
  | ternlogiRc =>
    obtain ⟨hpo, hxo, hrc⟩ := hternlogiRc.1 h
    have hlast : w[0] = true := hrc
    refine BitVec.eq_of_getLsbD_eq fun i hi => ?_
    simp only [encode, decodeFields, ← hpo, ← hxo, slice, BitVec.getLsbD_append, BitVec.getLsbD_extractLsb']
    interval_cases i <;> simp [hlast]
  | crternlogi =>
    obtain ⟨hpo, hxo⟩ := hcrternlogi.1 h
    refine BitVec.eq_of_getLsbD_eq fun i hi => ?_
    simp only [encode, decodeFields, maskField, crbTableField, ← hpo, ← hxo, slice, BitVec.getLsbD_append,
      BitVec.getLsbD_extractLsb']
    interval_cases i <;> simp
  | binlog =>
    obtain ⟨hpo, hxo⟩ := hbinlog.1 h
    refine BitVec.eq_of_getLsbD_eq fun i hi => ?_
    simp only [encode, decodeFields, ← hpo, ← hxo, slice, BitVec.getLsbD_append, BitVec.getLsbD_extractLsb']
    interval_cases i <;> simp [BitVec.getMsbD]
  | crbinlog =>
    obtain ⟨hpo, hxo⟩ := hcrbinlog.1 h
    refine BitVec.eq_of_getLsbD_eq fun i hi => ?_
    simp only [encode, decodeFields, maskField, reservedField, ← hpo, ← hxo, slice, BitVec.getLsbD_append,
      BitVec.getLsbD_extractLsb']
    interval_cases i <;> simp

/-- Settles O5: what the decoder answers is a selected row's reading. -/
theorem encodeInvertsDecode : Obligations.EncodeInvertsDecode := by
  intro p w i h
  obtain ⟨m, hsel, rfl⟩ := decode_eq_instr h
  exact encode_decodeFields hsel

end Sys2Proof
end

section
/-! Fields as numbers: the encoder's shift formulas and the decoder's shifts and masks (30_encoding.md). -/

namespace Sys2Proof

/-- A field that begins at bit 0 needs no mask. -/
theorem toNat_slice_zero {n : Nat} (v : BitVec n) {b : Nat} (hb : b < n) :
    (slice v 0 b).toNat = v.toNat >>> (n - 1 - b) := by
  rw [toNat_slice, Nat.and_two_pow_sub_one_eq_mod, Nat.mod_eq_of_lt]
  rw [Nat.shiftRight_eq_div_pow, Nat.div_lt_iff_lt_mul (by positivity), ← pow_add]
  convert v.isLt using 2
  omega

/-- Settles O6: a word put together from fields is, as a number, the OR of the fields shifted to their places. -/
theorem encodeIsTheShiftFormula : Obligations.EncodeIsTheShiftFormula := by
  intro p
  refine ⟨fun rt ra rb tli => ⟨?_, ?_⟩, fun bf bfa bfb tli msk => ?_, fun rt ra rb rc nh => ?_,
    fun bf bfa bfb msk => ?_⟩
  · simp only [encode, BitVec.toNat_append]
    simp [Nat.shiftLeft_or_distrib, ← Nat.shiftLeft_add]
  · simp only [encode, BitVec.toNat_append]
    simp [Nat.shiftLeft_or_distrib, ← Nat.shiftLeft_add]
  · simp only [encode, BitVec.toNat_append, toNat_slice_zero msk (b := 1) (by decide),
      toNat_slice_zero tli (b := 4) (by decide), toNat_slice]
    simp [Nat.shiftLeft_or_distrib, ← Nat.shiftLeft_add]
  · simp only [encode, BitVec.toNat_append, BitVec.toNat_ofBool]
    simp [Nat.shiftLeft_or_distrib, ← Nat.shiftLeft_add]
  · simp only [encode, BitVec.toNat_append, toNat_slice_zero msk (b := 1) (by decide), toNat_slice]
    simp [Nat.shiftLeft_or_distrib, ← Nat.shiftLeft_add]

/-- `msk` as the two shifts and masks of 30 R59. -/
theorem toNat_maskField (w : Word) :
    (maskField w).toNat = ((w.toNat >>> 21) &&& 3) <<< 2 ||| ((w.toNat >>> 16) &&& 3) := by
  simp only [maskField, BitVec.toNat_append, toNat_slice]
  simp

/-- `TLI` of the CRB-form as the three shifts and masks of 30 R61. -/
theorem toNat_crbTableField (w : Word) :
    (crbTableField w).toNat =
      ((w.toNat >>> 6) &&& 31) <<< 3 ||| ((w.toNat >>> 11) &&& 3) <<< 1 ||| (w.toNat &&& 1) := by
  simp only [crbTableField, BitVec.toNat_append, toNat_slice, Nat.shiftLeft_or_distrib, ← Nat.shiftLeft_add]
  simp

/-- One bit of a word as a shift and a mask. -/
theorem toNat_getMsbD (w : Word) {i : Nat} (hi : i < 32) :
    (w.getMsbD i).toNat = (w.toNat >>> (31 - i)) &&& 1 := by
  simp [BitVec.getMsbD, hi, BitVec.getLsbD, Nat.toNat_testBit, Nat.shiftRight_eq_div_pow]

/-- The mask of the reserved bits keeps the two pieces of the field, at their places (30 R67). -/
theorem and_reserved_mask (w : Word) : w &&& 0x1FC1#32 = 0#19 ++ slice w 19 25 ++ 0#5 ++ slice w 31 31 := by
  refine BitVec.eq_of_getLsbD_eq fun i hi => ?_
  simp only [slice, BitVec.getLsbD_and, BitVec.getLsbD_append, BitVec.getLsbD_extractLsb']
  interval_cases i <;> simp

/-- The reserved bits are 0 exactly when their mask finds none (30 R67). -/
theorem reservedField_eq_zero_iff (w : Word) : reservedField w = 0#8 ↔ w.toNat &&& 0x1FC1 = 0 := by
  have hword : w.toNat &&& 0x1FC1 = 0 ↔ w &&& 0x1FC1#32 = 0#19 ++ 0#7 ++ 0#5 ++ 0#1 := by
    rw [← BitVec.toNat_inj]
    simp
  have hfield : reservedField w = 0#8 ↔ slice w 19 25 ++ slice w 31 31 = 0#7 ++ 0#1 := Iff.rfl
  rw [hword, hfield, and_reserved_mask, append_eq_append_iff, append_eq_append_iff, append_eq_append_iff,
    append_eq_append_iff]
  simp

/-- Settles O8: each operand is its field of the word. -/
theorem operandFieldsAsShiftsAndMasks : Obligations.OperandFieldsAsShiftsAndMasks := by
  intro p w
  refine ⟨fun rt ra rb tli h => ?_, fun bf bfa bfb tli msk h => ?_, fun rt ra rb rc nh h => ?_,
    fun bf bfa bfb msk rsv h => ?_⟩
  · have hfields : rt = slice w 6 10 ∧ ra = slice w 11 15 ∧ rb = slice w 16 20 ∧ tli = slice w 21 28 := by
      obtain h | h := h
      · exact Instr.ternlogi.inj (eq_decodeFields_mnemonic h)
      · exact Instr.ternlogiRc.inj (eq_decodeFields_mnemonic h)
    obtain ⟨rfl, rfl, rfl, rfl⟩ := hfields
    exact ⟨toNat_slice w 6 10, toNat_slice w 11 15, toNat_slice w 16 20, toNat_slice w 21 28⟩
  · obtain ⟨rfl, rfl, rfl, rfl, rfl⟩ := Instr.crternlogi.inj (eq_decodeFields_mnemonic h)
    exact ⟨toNat_slice w 6 8, toNat_slice w 11 13, toNat_slice w 16 18, toNat_maskField w, toNat_crbTableField w⟩
  · obtain ⟨rfl, rfl, rfl, rfl, rfl⟩ := Instr.binlog.inj (eq_decodeFields_mnemonic h)
    exact ⟨toNat_slice w 6 10, toNat_slice w 11 15, toNat_slice w 16 20, toNat_slice w 21 25,
      toNat_getMsbD w (by decide)⟩
  · obtain ⟨rfl, rfl, rfl, rfl, rfl⟩ := Instr.crbinlog.inj (eq_decodeFields_mnemonic h)
    exact ⟨toNat_slice w 6 8, toNat_slice w 11 13, toNat_slice w 16 18, toNat_maskField w,
      reservedField_eq_zero_iff w⟩

/-- Settles O1: each word is one small run of the decoder under the fixture. -/
theorem wordsWrittenOutBitByBitDecode : Obligations.WordsWrittenOutBitByBitDecode := by
  unfold Obligations.WordsWrittenOutBitByBitDecode
  decide

end Sys2Proof
end

section
/-! The assembler's lines (30 R71 to R75). -/

namespace Sys2Proof

/-- What the two `ternlogi` lines assemble to, and from which numbers. -/
theorem asmTernary_eq_instr_iff {make : GprNum → GprNum → GprNum → Table8 → Instr} {rt ra rb tli : Nat}
    {i : Instr} :
    asmTernary make rt ra rb tli = .instr i ↔ (rt < 32 ∧ ra < 32 ∧ rb < 32 ∧ tli < 256) ∧
      i = make (BitVec.ofNat 5 rt) (BitVec.ofNat 5 ra) (BitVec.ofNat 5 rb) (BitVec.ofNat 8 tli) := by
  unfold asmTernary
  split <;> simp_all [eq_comm]

theorem asmCrternlogi_eq_instr_iff {bf bfa bfb tli msk : Nat} {i : Instr} :
    asmCrternlogi bf bfa bfb tli msk = .instr i ↔
      (bf < 8 ∧ bfa < 8 ∧ bfb < 8 ∧ tli < 256 ∧ msk < 16) ∧ msk ≠ 0 ∧
      i = .crternlogi (BitVec.ofNat 3 bf) (BitVec.ofNat 3 bfa) (BitVec.ofNat 3 bfb) (BitVec.ofNat 8 tli)
        (BitVec.ofNat 4 msk) := by
  unfold asmCrternlogi
  split_ifs <;> simp_all [eq_comm]

theorem asmBinlog_eq_instr_iff {rt ra rb rc nh : Nat} {i : Instr} :
    asmBinlog rt ra rb rc nh = .instr i ↔ (rt < 32 ∧ ra < 32 ∧ rb < 32 ∧ rc < 32 ∧ nh < 2) ∧
      i = .binlog (BitVec.ofNat 5 rt) (BitVec.ofNat 5 ra) (BitVec.ofNat 5 rb) (BitVec.ofNat 5 rc) (nh == 1) := by
  unfold asmBinlog
  split <;> simp_all [eq_comm]

theorem asmCrbinlog_eq_instr_iff {bf bfa bfb msk : Nat} {i : Instr} :
    asmCrbinlog bf bfa bfb msk = .instr i ↔ (bf < 8 ∧ bfa < 8 ∧ bfb < 8 ∧ msk < 16) ∧ msk ≠ 0 ∧
      i = .crbinlog (BitVec.ofNat 3 bf) (BitVec.ofNat 3 bfa) (BitVec.ofNat 3 bfb) (BitVec.ofNat 4 msk) 0#8 := by
  unfold asmCrbinlog
  split_ifs <;> simp_all [eq_comm]

/-- A legal instruction's own operands assemble to it; those of another do not. -/
theorem wellFormed_iff_assemble (i : Instr) : i.wellFormed = true ↔ assemble i.mnemonic i.operands = .instr i := by
  cases i with
  | ternlogi rt ra rb tli =>
    simp [Instr.wellFormed, Instr.mnemonic, Instr.operands, assemble, asmTernary_eq_instr_iff, rt.isLt, ra.isLt,
      rb.isLt, tli.isLt]
  | ternlogiRc rt ra rb tli =>
    simp [Instr.wellFormed, Instr.mnemonic, Instr.operands, assemble, asmTernary_eq_instr_iff, rt.isLt, ra.isLt,
      rb.isLt, tli.isLt]
  | crternlogi bf bfa bfb tli msk =>
    simp [Instr.wellFormed, Instr.mnemonic, Instr.operands, assemble, asmCrternlogi_eq_instr_iff, bf.isLt, bfa.isLt,
      bfb.isLt, tli.isLt, msk.isLt, ← BitVec.toNat_inj (x := msk)]
  | binlog rt ra rb rc nh =>
    simp [Instr.wellFormed, Instr.mnemonic, Instr.operands, assemble, asmBinlog_eq_instr_iff, rt.isLt, ra.isLt,
      rb.isLt, rc.isLt, nh.toNat_lt]
  | crbinlog bf bfa bfb msk rsv =>
    simp [Instr.wellFormed, Instr.mnemonic, Instr.operands, assemble, asmCrbinlog_eq_instr_iff, bf.isLt, bfa.isLt,
      bfb.isLt, msk.isLt, ← BitVec.toNat_inj (x := msk)]

/-- A line that assembles is that of a legal instruction, with the mnemonic and the operands of the line. -/
theorem assemble_sound {m : Mnemonic} {ops : List AsmOperand} {i : Instr} (h : assemble m ops = .instr i) :
    i.wellFormed = true ∧ i.mnemonic = m ∧ i.operands = ops := by
  unfold assemble at h
  split at h
  · obtain ⟨hr, rfl⟩ := asmTernary_eq_instr_iff.1 h
    simp [Instr.wellFormed, Instr.mnemonic, Instr.operands, Nat.mod_eq_of_lt, hr]
  · obtain ⟨hr, rfl⟩ := asmTernary_eq_instr_iff.1 h
    simp [Instr.wellFormed, Instr.mnemonic, Instr.operands, Nat.mod_eq_of_lt, hr]
  · obtain ⟨hr, h0, rfl⟩ := asmCrternlogi_eq_instr_iff.1 h
    simp [Instr.wellFormed, Instr.mnemonic, Instr.operands, Nat.mod_eq_of_lt, hr, h0, ← BitVec.toNat_inj]
  · next rt ra rb rc nh =>
    obtain ⟨⟨hrt, hra, hrb, hrc, hnh⟩, rfl⟩ := asmBinlog_eq_instr_iff.1 h
    have hbit : (nh == 1).toNat = nh := (by decide : ∀ n < 2, (n == 1).toNat = n) nh hnh
    simp [Instr.wellFormed, Instr.mnemonic, Instr.operands, Nat.mod_eq_of_lt, hrt, hra, hrb, hrc, hbit]
  · obtain ⟨hr, h0, rfl⟩ := asmCrbinlog_eq_instr_iff.1 h
    simp [Instr.wellFormed, Instr.mnemonic, Instr.operands, Nat.mod_eq_of_lt, hr, h0, ← BitVec.toNat_inj]
  · cases h

/-- Settles O9: both directions by the form of the line. -/
theorem assemblerAcceptsExactlyTheLegalInstructions : Obligations.AssemblerAcceptsExactlyTheLegalInstructions :=
  ⟨wellFormed_iff_assemble, fun _ _ _ => assemble_sound⟩

end Sys2Proof
end

section
/-! The look-ups at every width: elements, named tables, index orders (41 R80, R86; 42 R100, R103, R104; 90 C1). -/

namespace Sys2Proof.Machine

/-- What the model reads from a table is the element its index order names (00 R10). -/
theorem isElement_tableBit {n : Nat} (order : LutOrder) (tbl : BitVec n) (j : Nat) :
    isElement order tbl j (tableBit order tbl j) := by
  constructor <;> rintro rfl <;> rfl

/-- Settles O10: one bit of `LUT3` is the table's bit the operand bits name. -/
theorem lut3PicksTheNamedElementAtEachBit : Obligations.Lut3PicksTheNamedElementAtEachBit := by
  intro n order tbl x y z i hi
  rw [getMsbD_lut3 order tbl x y z hi]
  exact isElement_tableBit order tbl _

/-- Settles O11: one bit of `LUT2` is the table's bit the operand bits name. -/
theorem lut2PicksTheNamedElementAtEachBit : Obligations.Lut2PicksTheNamedElementAtEachBit := by
  intro n order tbl x y i hi
  rw [getMsbD_lut2 order tbl x y hi]
  exact isElement_tableBit order tbl _

/-- `LUT3` under msb0 computes what agrees with the truth table `f` at every bit, if the table lists `f`. -/
theorem lut3_eq_of_truthTable {n : Nat} {tbl : Table8} {x y z r : BitVec n} (f : Bool → Bool → Bool → Bool)
    (hr : ∀ i < n, r.getMsbD i = f (x.getMsbD i) (y.getMsbD i) (z.getMsbD i))
    (htbl : ∀ a b c, tbl.getMsbD (index3 a b c) = f a b c) : lut3 .msb0 tbl x y z = r := by
  refine BitVec.eq_of_getMsbD_eq fun i hi => ?_
  rw [getMsbD_lut3 .msb0 tbl x y z hi, hr i hi]
  exact htbl _ _ _

/-- `LUT2` under msb0 computes what agrees with the truth table `f` at every bit, if the table lists `f`. -/
theorem lut2_eq_of_truthTable {n : Nat} {tbl : Nibble} {x y r : BitVec n} (f : Bool → Bool → Bool)
    (hr : ∀ i < n, r.getMsbD i = f (x.getMsbD i) (y.getMsbD i))
    (htbl : ∀ a b, tbl.getMsbD (index2 a b) = f a b) : lut2 .msb0 tbl x y = r := by
  refine BitVec.eq_of_getMsbD_eq fun i hi => ?_
  rw [getMsbD_lut2 .msb0 tbl x y hi, hr i hi]
  exact htbl _ _

/-- Settles O12: each table lists the truth table of its function. -/
theorem lut3TablesNamedByTheSpec : Obligations.Lut3TablesNamedByTheSpec := by
  intro n x y z
  refine ⟨lut3_eq_of_truthTable (fun _ _ _ => false) ?_ (by decide),
    lut3_eq_of_truthTable (fun _ _ _ => true) ?_ (by decide),
    lut3_eq_of_truthTable (fun a _ _ => a) ?_ (by decide),
    lut3_eq_of_truthTable (fun _ b _ => b) ?_ (by decide),
    lut3_eq_of_truthTable (fun _ _ c => c) ?_ (by decide),
    lut3_eq_of_truthTable (fun a _ _ => !a) ?_ (by decide),
    lut3_eq_of_truthTable (fun a b c => a && b && c) ?_ (by decide),
    lut3_eq_of_truthTable (fun a b c => a || b || c) ?_ (by decide),
    lut3_eq_of_truthTable (fun a b c => !(a || b || c)) ?_ (by decide),
    lut3_eq_of_truthTable (fun a b c => !(a && b && c)) ?_ (by decide),
    lut3_eq_of_truthTable (fun a b c => (a ^^ b) ^^ c) ?_ (by decide),
    lut3_eq_of_truthTable (fun a b c => a && b || a && c || b && c) ?_ (by decide),
    lut3_eq_of_truthTable (fun a b _ => a && b) ?_ (by decide),
    lut3_eq_of_truthTable (fun a b _ => a || b) ?_ (by decide),
    lut3_eq_of_truthTable (fun a b _ => a ^^ b) ?_ (by decide),
    lut3_eq_of_truthTable (fun a b c => a && !c || b && c) ?_ (by decide),
    lut3_eq_of_truthTable (fun a b c => a && b || !a && c) ?_ (by decide),
    lut3_eq_of_truthTable (fun a b _ => a && !b) ?_ (by decide)⟩ <;>
  · intro i hi
    simp [hi]

/-- Settles O13: each table lists the truth table of its function. -/
theorem lut2SixteenTables : Obligations.Lut2SixteenTables := by
  intro n x y
  refine ⟨lut2_eq_of_truthTable (fun _ _ => false) ?_ (by decide),
    lut2_eq_of_truthTable (fun a b => a && b) ?_ (by decide),
    lut2_eq_of_truthTable (fun a b => a && !b) ?_ (by decide),
    lut2_eq_of_truthTable (fun a _ => a) ?_ (by decide),
    lut2_eq_of_truthTable (fun a b => !a && b) ?_ (by decide),
    lut2_eq_of_truthTable (fun _ b => b) ?_ (by decide),
    lut2_eq_of_truthTable (fun a b => a ^^ b) ?_ (by decide),
    lut2_eq_of_truthTable (fun a b => a || b) ?_ (by decide),
    lut2_eq_of_truthTable (fun a b => !(a || b)) ?_ (by decide),
    lut2_eq_of_truthTable (fun a b => !(a ^^ b)) ?_ (by decide),
    lut2_eq_of_truthTable (fun _ b => !b) ?_ (by decide),
    lut2_eq_of_truthTable (fun a b => a || !b) ?_ (by decide),
    lut2_eq_of_truthTable (fun a _ => !a) ?_ (by decide),
    lut2_eq_of_truthTable (fun a b => !a || b) ?_ (by decide),
    lut2_eq_of_truthTable (fun a b => !(a && b)) ?_ (by decide),
    lut2_eq_of_truthTable (fun _ _ => true) ?_ (by decide)⟩ <;>
  · intro i hi
    simp [hi]

/-- The multiplexer table of 41 R86, `(x & ~z) | (y & z)`. -/
theorem lut3_mux {n : Nat} (x y z : BitVec n) : lut3 .msb0 0b00011011 x y z = (x &&& ~~~z) ||| (y &&& z) :=
  lut3_eq_of_truthTable (fun a b c => a && !c || b && c) (fun i hi => by simp [hi]) (by decide)

/-- The table of the copies, `y` (41 R87). -/
theorem lut3_second {n : Nat} (x y z : BitVec n) : lut3 .msb0 0b00110011 x y z = y :=
  lut3_eq_of_truthTable (fun _ b _ => b) (fun _ _ => rfl) (by decide)

/-- The lsb0 reading of a table is the msb0 reading of the table reversed (90 C1). -/
theorem lut3_lsb0 {n : Nat} (tbl : Table8) (x y z : BitVec n) :
    lut3 .lsb0 tbl x y z = lut3 .msb0 tbl.reverse x y z := by
  simp [lut3, BitVec.getMsbD_reverse]

/-- Read as msb0, the printed constant gives ones where all operands are 0, and the multiplexer gives zeros there. -/
theorem lut3_msb0_printed_ne_mux {n : Nat} (hn : 0 < n) :
    lut3 .msb0 0b11011000 0#n 0#n 0#n ≠ (0#n &&& ~~~0#n) ||| (0#n &&& 0#n) := by
  intro h
  have hbit := congrArg (BitVec.getMsbD · 0) h
  simp [getMsbD_lut3 _ _ _ _ _ hn] at hbit

/-- Settles O14: lsb0 reads the reversed table, and the printed constant reversed is the multiplexer's table. -/
theorem indexOrdersAreBitReversals : Obligations.IndexOrdersAreBitReversals := by
  intro n tbl x y z
  refine ⟨lut3_lsb0 tbl x y z, fun hrev => ?_, ?_, fun hn => ⟨0#n, 0#n, 0#n, lut3_msb0_printed_ne_mux hn⟩⟩
  · rw [lut3_lsb0, hrev]
  · have hrev : (0b11011000 : Table8).reverse = 0b00011011 := by decide
    rw [lut3_lsb0, hrev, lut3_mux]

/-- Settles O15: at each bit, `c` chooses the nibble of the table in which `a` and `b` name the element. -/
theorem twoBinaryLookupsMakeATernaryOne : Obligations.TwoBinaryLookupsMakeATernaryOne := by
  intro n t a b c
  have hlow : ∀ j < 4, (slice t 4 7).getMsbD j = t.getMsbD (4 + j) := fun j hj =>
    getMsbD_slice t (by decide) (by decide) (Nat.le_of_lt_succ hj)
  have hhigh : ∀ j < 4, (slice t 0 3).getMsbD j = t.getMsbD (0 + j) := fun j hj =>
    getMsbD_slice t (by decide) (by decide) (Nat.le_of_lt_succ hj)
  rw [lut3_mux]
  refine BitVec.eq_of_getMsbD_eq fun i hi => ?_
  have hj : 2 * (a.getMsbD i).toNat + (b.getMsbD i).toNat < 4 := by
    cases a.getMsbD i <;> cases b.getMsbD i <;> decide
  rw [getMsbD_lut3 .msb0 t _ a b hi]
  simp only [BitVec.getMsbD_or, BitVec.getMsbD_and, BitVec.getMsbD_not, hi, getMsbD_lut2 .msb0 _ a b hi, tableBit_msb0,
    hlow _ hj, hhigh _ hj, decide_true, Bool.true_and]
  cases c.getMsbD i
  · simp [Nat.add_assoc]
  · simp

end Sys2Proof.Machine
end

section
/-! What each instruction answers: its state when it completes, and when it does not (41, 42). -/

namespace Sys2Proof.Machine

/-- The state an instruction leaves when it completes; `exec_eq_next_iff` says when it does. -/
def effect : Instr → State → State
  | .ternlogi rt ra rb tli, s => (s.writeGpr rt (ternaryResult rt ra rb tli s)).advance
  | .ternlogiRc rt ra rb tli, s =>
    ((s.writeGpr rt (ternaryResult rt ra rb tli s)).recordCr0 (ternaryResult rt ra rb tli s)).advance
  | .crternlogi bf bfa bfb tli msk, s =>
    (s.writeCrMasked bf
      (lut3 s.config.lutOrder tli (s.readCrField bf) (s.readCrField bfa) (s.readCrField bfb)) msk).advance
  | .binlog rt ra rb rc nh, s =>
    (s.writeGpr rt (lut2 .msb0 (binlogTable (s.readGpr rc) nh) (s.readGpr ra) (s.readGpr rb))).advance
  | .crbinlog bf bfa bfb msk _, s =>
    (s.writeCrMasked bf (lut2 .msb0 (s.readCrField bfb) (s.readCrField bf) (s.readCrField bfa)) msk).advance

/-- An instruction that completes leaves its effect. -/
theorem exec_of_completes {i : Instr} {s : State} (h : completes s.config.reservedNonzero i = true) :
    exec i s = .next (effect i s) := by
  cases i with
  | ternlogi rt ra rb tli => exact exec_ternlogi rt ra rb tli s
  | ternlogiRc rt ra rb tli => exact exec_ternlogiRc rt ra rb tli s
  | crternlogi bf bfa bfb tli msk => exact exec_crternlogi bf bfa bfb tli s (by simpa [completes] using h)
  | binlog rt ra rb rc nh => exact exec_binlog rt ra rb rc nh s
  | crbinlog bf bfa bfb msk rsv =>
    obtain ⟨hmsk, hrsv⟩ : msk ≠ 0#4 ∧ (rsv = 0#8 ∨ s.config.reservedNonzero = .ignore) := by
      simpa [completes] using h
    exact exec_crbinlog bf bfa bfb s hmsk hrsv

/-- A refused instruction's refusal carries its word (30 R67). -/
theorem exec_of_refusedInstr {i : Instr} {s : State} (h : refusedInstr s.config.reservedNonzero i = true) :
    exec i s = .refused (.reservedBitsSet (encode s.config.opcodes i)) := by
  obtain ⟨bf, bfa, bfb, msk, rsv, rfl, hmsk, hrsv, hpolicy⟩ := refusedInstr_eq_true_iff.1 h
  exact exec_crbinlog_refused bf bfa bfb s hmsk hrsv hpolicy

/-- Every instruction completes, has a zero mask, or is refused (60 R123). -/
theorem completes_or_zeroMask_or_refused (policy : ReservedPolicy) (i : Instr) :
    completes policy i = true ∨ i.ZeroMask ∨ refusedInstr policy i = true := by
  cases i with
  | ternlogi rt ra rb tli => exact .inl rfl
  | ternlogiRc rt ra rb tli => exact .inl rfl
  | crternlogi bf bfa bfb tli msk =>
    by_cases h : msk = 0#4
    · exact .inr (.inl (.inl ⟨bf, bfa, bfb, tli, by rw [h]⟩))
    · exact .inl (by simp [completes, h])
  | binlog rt ra rb rc nh => exact .inl rfl
  | crbinlog bf bfa bfb msk rsv =>
    by_cases h : msk = 0#4
    · exact .inr (.inl (.inr ⟨bf, bfa, bfb, rsv, by rw [h]⟩))
    · by_cases hr : rsv = 0#8
      · exact .inl (by simp [completes, h, hr])
      · cases policy
        · exact .inr (.inr (by simp [refusedInstr, h, hr]))
        · exact .inl (by simp [completes, h])

/-- An instruction goes on exactly when it completes, to its effect. -/
theorem exec_eq_next_iff {i : Instr} {s t : State} :
    exec i s = .next t ↔ completes s.config.reservedNonzero i = true ∧ t = effect i s := by
  constructor
  · intro h
    rcases completes_or_zeroMask_or_refused s.config.reservedNonzero i with hc | hz | hr
    · rw [exec_of_completes hc] at h
      cases h
      exact ⟨hc, rfl⟩
    · rw [exec_eq_fault_iff.2 ⟨hz, rfl⟩] at h
      cases h
    · rw [exec_of_refusedInstr hr] at h
      cases h
  · rintro ⟨hc, rfl⟩
    exact exec_of_completes hc

/-- An instruction is refused exactly when it is a `crbinlog` with reserved bits that the policy refuses. -/
theorem exec_eq_refused_iff {i : Instr} {s : State} {r : Refusal} :
    exec i s = .refused r ↔ refusedInstr s.config.reservedNonzero i = true ∧
      r = .reservedBitsSet (encode s.config.opcodes i) := by
  constructor
  · intro h
    rcases completes_or_zeroMask_or_refused s.config.reservedNonzero i with hc | hz | hr
    · rw [exec_of_completes hc] at h
      cases h
    · rw [exec_eq_fault_iff.2 ⟨hz, rfl⟩] at h
      cases h
    · rw [exec_of_refusedInstr hr] at h
      cases h
      exact ⟨hr, rfl⟩
  · rintro ⟨hr, rfl⟩
    exact exec_of_refusedInstr hr

/-- An instruction that goes on keeps SO, the configuration and every byte, and moves the pc by 4. -/
theorem keepsRest_of_exec_next {i : Instr} {s t : State} (h : exec i s = .next t) : keepsRest s t := by
  obtain ⟨hso, hconfig, hpc⟩ := exec_next_keeps h
  exact ⟨hso, hconfig, readByte_congr hconfig, hpc⟩

/-- Each bit of the ternary result is the element that the three registers' bits name (41 R80, R81). -/
theorem isElement_ternaryResult (rt ra rb : GprNum) (tli : Table8) (s : State) {k : Nat} (hk : k < 64) :
    isElement s.config.lutOrder tli
      (index3 ((s.readGpr rt).getMsbD k) ((s.readGpr ra).getMsbD k) ((s.readGpr rb).getMsbD k))
      ((ternaryResult rt ra rb tli s).getMsbD k) :=
  lut3PicksTheNamedElementAtEachBit 64 s.config.lutOrder tli _ _ _ k hk

theorem index2_lt_four (a b : Bool) : index2 a b < 4 := by
  cases a <;> cases b <;> decide

/-- Each bit of the look-up of `binlog` is the bit of GPR[RC] that the two registers' bits name (42 R101). -/
theorem getMsbD_lut2_binlogTable (c a b : Dword) (nh : Bool) {k : Nat} (hk : k < 64) :
    (lut2 .msb0 (binlogTable c nh) a b).getMsbD k =
      c.getMsbD ((if nh then 56 else 60) + index2 (a.getMsbD k) (b.getMsbD k)) := by
  rw [getMsbD_lut2 .msb0 _ a b hk, tableBit_msb0]
  exact getMsbD_binlogTable c nh (index2_lt_four _ _)

/-- Each bit of BF that the mask of `crternlogi` selects is the element that the three fields' bits name (41 R84). -/
theorem isElement_fieldBit_crternlogi (s : State) (bf bfa bfb : CrNum) (tli : Table8) {msk : Nibble} {k : Nat}
    (hk : k < 4) (hsel : msk.getMsbD k = true) :
    isElement s.config.lutOrder tli (index3 (fieldBit s bf k) (fieldBit s bfa k) (fieldBit s bfb k))
      (fieldBit (effect (.crternlogi bf bfa bfb tli msk) s) bf k) := by
  have hbit : fieldBit (effect (.crternlogi bf bfa bfb tli msk) s) bf k =
      (lut3 s.config.lutOrder tli (s.readCrField bf) (s.readCrField bfa) (s.readCrField bfb)).getMsbD k :=
    (fieldBit_writeCrMasked s bf _ msk hk).trans (if_pos hsel)
  rw [hbit]
  simpa only [getMsbD_readCrField s _ hk, fieldBit] using
    lut3PicksTheNamedElementAtEachBit 4 s.config.lutOrder tli (s.readCrField bf) (s.readCrField bfa)
      (s.readCrField bfb) k hk

/-- Each bit of BF that the mask of `crbinlog` selects is the bit of BFB that the bits of BF and BFA name (42 R102). -/
theorem fieldBit_crbinlog (s : State) (bf bfa bfb : CrNum) (rsv : BitVec 8) {msk : Nibble} {k : Nat}
    (hk : k < 4) (hsel : msk.getMsbD k = true) :
    fieldBit (effect (.crbinlog bf bfa bfb msk rsv) s) bf k =
      fieldBit s bfb (index2 (fieldBit s bf k) (fieldBit s bfa k)) := by
  have hbit : fieldBit (effect (.crbinlog bf bfa bfb msk rsv) s) bf k =
      (lut2 .msb0 (s.readCrField bfb) (s.readCrField bf) (s.readCrField bfa)).getMsbD k :=
    (fieldBit_writeCrMasked s bf _ msk hk).trans (if_pos hsel)
  rw [hbit, getMsbD_lut2 .msb0 _ _ _ hk, tableBit_msb0, getMsbD_readCrField s bf hk, getMsbD_readCrField s bfa hk]
  exact getMsbD_readCrField s bfb (index2_lt_four _ _)

/-- A masked write leaves the CR bits its mask does not select, in the field and outside it (41 R85). -/
theorem crBit_writeCrMasked_of_unselected (s : State) (bf : CrNum) (val : Nibble) {msk : Nibble} {k : Nat}
    (h1 : 32 ≤ k) (h2 : k ≤ 63) (hun : unselected bf msk k) : (s.writeCrMasked bf val msk).crBit k = s.crBit k := by
  rw [crBit_writeCrMasked s bf val msk h1 h2, if_neg]
  rintro ⟨⟨hlo, hhi⟩, hsel⟩
  rw [hun (k - (4 * bf.toNat + 32)) (by omega) (by omega)] at hsel
  cases hsel

/-- Settles O16: the effect writes GPR[RT] with the look-up of the old registers. -/
theorem ternlogiWritesTheLookupOfOldRegisters : Obligations.TernlogiWritesTheLookupOfOldRegisters := by
  intro s rt ra rb tli
  have hexec := exec_ternlogi rt ra rb tli s
  refine ⟨_, hexec, fun k hk => ?_, fun r hr => ?_, rfl, keepsRest_of_exec_next hexec⟩
  · rw [readGpr_advance, readGpr_writeGpr_self]
    exact isElement_ternaryResult rt ra rb tli s hk
  · exact readGpr_writeGpr_of_ne s _ hr

/-- Settles O17: GPR[RT] as for `ternlogi`; the CR bits by the law of the CR0 record. -/
theorem ternlogiRcWritesTheLookupAndRecordsCr0 : Obligations.TernlogiRcWritesTheLookupAndRecordsCr0 := by
  intro s rt ra rb tli
  have hexec := exec_ternlogiRc rt ra rb tli s
  have hrt : (effect (.ternlogiRc rt ra rb tli) s).readGpr rt = ternaryResult rt ra rb tli s :=
    readGpr_writeGpr_self s rt _
  have hcr : ∀ k, 32 ≤ k → k ≤ 63 → (effect (.ternlogiRc rt ra rb tli) s).crBit k =
      if k ≤ 35 then (cr0Value s.config.mode64 (ternaryResult rt ra rb tli s) s.so).getMsbD (k - 32)
      else s.crBit k :=
    fun k => crBit_recordCr0 (s.writeGpr rt (ternaryResult rt ra rb tli s)) _
  refine ⟨effect (.ternlogiRc rt ra rb tli) s, hexec, fun k hk => ?_, fun r hr => ?_, fun v hv => ?_, ?_,
    fun k h1 h2 => ?_, keepsRest_of_exec_next hexec⟩
  · rw [hrt]
    exact isElement_ternaryResult rt ra rb tli s hk
  · exact readGpr_writeGpr_of_ne s _ hr
  · rw [hrt] at hv
    obtain ⟨hlt, hgt, heq, -⟩ := getMsbD_cr0Value s.config.mode64 (ternaryResult rt ra rb tli s) s.so v hv
    exact ⟨(hcr 32 (by decide) (by decide)).trans hlt, (hcr 33 (by decide) (by decide)).trans hgt,
      (hcr 34 (by decide) (by decide)).trans heq⟩
  · obtain ⟨-, -, -, hso⟩ := getMsbD_cr0Value s.config.mode64 (ternaryResult rt ra rb tli s) s.so _ rfl
    exact (hcr 35 (by decide) (by decide)).trans hso
  · rw [hcr k (by omega) h2, if_neg (by omega)]

/-- Settles O18: the trap of a zero mask, else the masked write of the look-up. -/
theorem crternlogiWritesTheMaskedLookup : Obligations.CrternlogiWritesTheMaskedLookup := by
  intro s bf bfa bfb tli msk
  constructor
  · rintro rfl
    exact exec_crternlogi_trap bf bfa bfb tli s
  · intro hmsk
    have hexec := exec_crternlogi bf bfa bfb tli s hmsk
    exact ⟨effect (.crternlogi bf bfa bfb tli msk) s, hexec,
      fun k hk hsel => isElement_fieldBit_crternlogi s bf bfa bfb tli hk hsel,
      fun k h1 h2 hun => crBit_writeCrMasked_of_unselected s bf _ h1 h2 hun, fun _ => rfl,
      keepsRest_of_exec_next hexec⟩

/-- Settles O19: the effect writes GPR[RT] with the look-up by the nibble of the old GPR[RC]. -/
theorem binlogWritesTheLookupOfARegisterTable : Obligations.BinlogWritesTheLookupOfARegisterTable := by
  intro s rt ra rb rc nh
  have hexec := exec_binlog rt ra rb rc nh s
  refine ⟨_, hexec, fun k hk => ?_, fun r hr => ?_, rfl, keepsRest_of_exec_next hexec⟩
  · rw [readGpr_advance, readGpr_writeGpr_self]
    exact getMsbD_lut2_binlogTable _ _ _ nh hk
  · exact readGpr_writeGpr_of_ne s _ hr

/-- Settles O20: the trap of a zero mask, else the masked write of the look-up. -/
theorem crbinlogWritesTheMaskedLookup : Obligations.CrbinlogWritesTheMaskedLookup := by
  intro s bf bfa bfb msk
  constructor
  · rintro rfl
    exact exec_crbinlog_trap bf bfa bfb 0#8 s
  · intro hmsk
    have hexec := exec_crbinlog bf bfa bfb s hmsk (.inl rfl)
    exact ⟨effect (.crbinlog bf bfa bfb msk 0#8) s, hexec,
      fun k hk hsel => fieldBit_crbinlog s bf bfa bfb 0#8 hk hsel,
      fun k h1 h2 hun => crBit_writeCrMasked_of_unselected s bf _ h1 h2 hun, fun _ => rfl,
      keepsRest_of_exec_next hexec⟩

/-- Settles O21: the three answers of `crbinlog`; its effect does not look at the reserved bits. -/
theorem crbinlogReservedBitsFollowThePolicy : Obligations.CrbinlogReservedBitsFollowThePolicy := by
  intro s bf bfa bfb msk rsv hrsv
  refine ⟨fun hmsk hpolicy => exec_crbinlog_refused bf bfa bfb s hmsk hrsv hpolicy,
    fun hmsk hpolicy =>
      ⟨_, exec_crbinlog bf bfa bfb s hmsk (.inr hpolicy), exec_crbinlog bf bfa bfb s hmsk (.inl rfl)⟩,
    ?_⟩
  rintro rfl
  exact exec_crbinlog_trap bf bfa bfb rsv s

/-- The CR0 record is the CR0 value, whatever the field held. -/
theorem readCrField_recordCr0 (s : State) (v : Dword) :
    (s.recordCr0 v).readCrField 0#3 = cr0Value s.config.mode64 v s.so := by
  refine BitVec.eq_of_getMsbD_eq fun i hi => ?_
  have hk : 4 * (0#3).toNat + 32 + i = 32 + i := rfl
  rw [getMsbD_readCrField _ _ hi, hk, crBit_recordCr0 s v (by omega) (by omega), if_pos (by omega),
    Nat.add_sub_cancel_left]

/-- A value is negative, positive or zero. -/
theorem signClass_cases {n : Nat} (v : BitVec n) :
    signClass v = 0b100#3 ∨ signClass v = 0b010#3 ∨ signClass v = 0b001#3 := by
  unfold signClass
  split_ifs <;> simp

/-- The CR0 value is one of three classes and SO, in both modes (41 R83). -/
theorem cr0Value_cases (mode64 : Bool) (v : Dword) (so : Bool) :
    ∃ c, (c = 0b100#3 ∨ c = 0b010#3 ∨ c = 0b001#3) ∧ cr0Value mode64 v so = c ++ BitVec.ofBool so := by
  cases mode64
  · exact ⟨_, signClass_cases (slice v 32 63), rfl⟩
  · exact ⟨_, signClass_cases v, rfl⟩

/-- Settles O23: CR Field 0 is the recorded value, whose class is one of three. -/
theorem recordedCr0HasExactlyOneOfLtGtEq : Obligations.RecordedCr0HasExactlyOneOfLtGtEq := by
  intro s t rt ra rb tli h
  obtain ⟨-, rfl⟩ := exec_eq_next_iff.1 h
  have hfield : (effect (.ternlogiRc rt ra rb tli) s).readCrField 0#3 =
      cr0Value s.config.mode64 (ternaryResult rt ra rb tli s) s.so :=
    readCrField_recordCr0 (s.writeGpr rt (ternaryResult rt ra rb tli s)) _
  obtain ⟨c, hc, hvalue⟩ := cr0Value_cases s.config.mode64 (ternaryResult rt ra rb tli s) s.so
  rw [hfield, hvalue]
  constructor <;>
  · intro hso
    rw [hso]
    rcases hc with rfl | rfl | rfl <;> decide

/-- A masked write under the full mask replaces the field. -/
theorem readCrField_writeCrMasked_full (s : State) (bf : CrNum) (val : Nibble) :
    (s.writeCrMasked bf val 0b1111#4).readCrField bf = val := by
  refine BitVec.eq_of_getMsbD_eq fun i hi => ?_
  have hsel : (0b1111#4).getMsbD i = true := (by decide : ∀ j < 4, (0b1111#4).getMsbD j = true) i hi
  rw [getMsbD_readCrField _ _ hi]
  exact (fieldBit_writeCrMasked s bf val _ hi).trans (if_pos hsel)

/-- Settles O24: the table's look-up is its second operand. -/
theorem table33CopiesTheSecondOperand : Obligations.Table33CopiesTheSecondOperand := by
  intro s horder
  refine ⟨fun rt ra rb => ⟨_, exec_ternlogi rt ra rb _ s, ?_⟩,
    fun bf bfa bfb => ⟨_, exec_crternlogi bf bfa bfb _ s (by decide), ?_⟩⟩
  · rw [readGpr_advance, readGpr_writeGpr_self, ternaryResult, horder, lut3_second]
  · rw [readCrField_advance, horder, lut3_second]
    exact readCrField_writeCrMasked_full s bf _

end Sys2Proof.Machine
end

section
/-! What each instruction reads and writes (10 R21, R27), and what it does not look at (92 D6, D7, D11). -/

namespace Sys2Proof.Machine

/-- A GPR an instruction does not write keeps its value. -/
theorem readGpr_effect_of_not_written {i : Instr} {r : GprNum} (s : State) (h : r ∉ gprWrites i) :
    (effect i s).readGpr r = s.readGpr r := by
  cases i with
  | ternlogi rt ra rb tli => exact readGpr_writeGpr_of_ne s _ (List.ne_of_not_mem_cons h)
  | ternlogiRc rt ra rb tli => exact readGpr_writeGpr_of_ne s _ (List.ne_of_not_mem_cons h)
  | crternlogi bf bfa bfb tli msk => rfl
  | binlog rt ra rb rc nh => exact readGpr_writeGpr_of_ne s _ (List.ne_of_not_mem_cons h)
  | crbinlog bf bfa bfb msk rsv => rfl

/-- The ternary result depends on the three registers and the index order. -/
theorem ternaryResult_congr {s s' : State} {rt ra rb : GprNum} (tli : Table8)
    (hreads : ∀ r ∈ [rt, ra, rb], s'.readGpr r = s.readGpr r) (horder : s'.config.lutOrder = s.config.lutOrder) :
    ternaryResult rt ra rb tli s' = ternaryResult rt ra rb tli s := by
  rw [ternaryResult, ternaryResult, horder, hreads rt (by simp), hreads ra (by simp), hreads rb (by simp)]

/-- What an instruction writes of the GPRs depends on the GPRs it reads, the CR pair's nothing, and the index order. -/
theorem readGpr_effect_congr {i : Instr} {s s' : State} (hreads : ∀ r ∈ gprReads i, s'.readGpr r = s.readGpr r)
    (horder : s'.config.lutOrder = s.config.lutOrder) {r : GprNum} (hr : r ∈ gprWrites i) :
    (effect i s').readGpr r = (effect i s).readGpr r := by
  cases i with
  | ternlogi rt ra rb tli =>
    obtain rfl := List.mem_singleton.1 hr
    simp [effect, ternaryResult_congr tli hreads horder]
  | ternlogiRc rt ra rb tli =>
    obtain rfl := List.mem_singleton.1 hr
    simp [effect, ternaryResult_congr tli hreads horder]
  | crternlogi bf bfa bfb tli msk => simp [gprWrites] at hr
  | binlog rt ra rb rc nh =>
    obtain rfl := List.mem_singleton.1 hr
    simp [effect, hreads ra (by simp [gprReads]), hreads rb (by simp [gprReads]), hreads rc (by simp [gprReads])]
  | crbinlog bf bfa bfb msk rsv => simp [gprWrites] at hr

/-- The CR after an instruction depends on the CR, SO, the index order, the mode and the GPRs it reads. -/
theorem cr_effect_congr {i : Instr} {s s' : State} (hreads : ∀ r ∈ gprReads i, s'.readGpr r = s.readGpr r)
    (hcr : s'.cr = s.cr) (hso : s'.so = s.so) (horder : s'.config.lutOrder = s.config.lutOrder)
    (hmode : i.mnemonic = .ternlogiRc → s'.config.mode64 = s.config.mode64) : (effect i s').cr = (effect i s).cr := by
  cases i with
  | ternlogi rt ra rb tli => exact hcr
  | ternlogiRc rt ra rb tli => simp [effect, ternaryResult_congr tli hreads horder, hcr, hso, hmode rfl]
  | crternlogi bf bfa bfb tli msk => simp [effect, State.readCrField, hcr, horder]
  | binlog rt ra rb rc nh => exact hcr
  | crbinlog bf bfa bfb msk rsv => simp [effect, State.readCrField, hcr]

/-- Settles O27: from the frame and the dependence of an instruction's effect, and the bits of the look-ups. -/
theorem gprAccessByInstruction : Obligations.GprAccessByInstruction := by
  intro i s t h
  obtain ⟨hc, rfl⟩ := exec_eq_next_iff.1 h
  refine ⟨fun r hr => readGpr_effect_of_not_written s hr, fun s' hcr hso _ hconfig hreads => ?_,
    fun rt ra rb tli hi k hk => ?_, ?_⟩
  · have horder : s'.config.lutOrder = s.config.lutOrder := by rw [hconfig]
    exact ⟨effect i s', exec_of_completes (by rwa [hconfig]), fun r => readGpr_effect_congr hreads horder,
      cr_effect_congr hreads hcr hso horder fun _ => by rw [hconfig]⟩
  · have hrt : (effect i s).readGpr rt = ternaryResult rt ra rb tli s := by
      rcases hi with rfl | rfl <;> exact readGpr_writeGpr_self s rt _
    rw [hrt]
    exact isElement_ternaryResult rt ra rb tli s hk
  · rintro rt ra rb rc nh rfl k hk
    rw [effect, readGpr_advance, readGpr_writeGpr_self]
    exact getMsbD_lut2_binlogTable _ _ _ nh hk

section
variable (s : State) (bf : CrNum) (val msk : Nibble) {k : Nat} (h1 : 32 ≤ k) (h2 : k ≤ 63)
include h1 h2

/-- A CR bit that `crWrites` names for the CR pair is written with the value's bit. -/
theorem crBit_writeCrMasked_of_written
    (h : (4 * bf.toNat + 32 ≤ k && k ≤ 4 * bf.toNat + 35 && msk.getMsbD (k - (4 * bf.toNat + 32))) = true) :
    (s.writeCrMasked bf val msk).crBit k = val.getMsbD (k - (4 * bf.toNat + 32)) := by
  rw [crBit_writeCrMasked s bf val msk h1 h2, if_pos (by simpa using h)]

/-- A CR bit that `crWrites` does not name for the CR pair is kept. -/
theorem crBit_writeCrMasked_of_not_written
    (h : (4 * bf.toNat + 32 ≤ k && k ≤ 4 * bf.toNat + 35 && msk.getMsbD (k - (4 * bf.toNat + 32))) = false) :
    (s.writeCrMasked bf val msk).crBit k = s.crBit k := by
  rw [crBit_writeCrMasked s bf val msk h1 h2, if_neg (by simpa using h)]

end

/-- A CR bit an instruction does not write keeps its value. -/
theorem crBit_effect_of_not_written {i : Instr} (s : State) {k : Nat} (h1 : 32 ≤ k) (h2 : k ≤ 63)
    (h : crWrites k i = false) : (effect i s).crBit k = s.crBit k := by
  cases i with
  | ternlogi rt ra rb tli => rfl
  | ternlogiRc rt ra rb tli =>
    have hk : ¬ k ≤ 35 := by simpa [crWrites, h1] using h
    exact (crBit_recordCr0 (s.writeGpr rt _) _ h1 h2).trans (if_neg hk)
  | crternlogi bf bfa bfb tli msk =>
    exact crBit_writeCrMasked_of_not_written s bf _ msk h1 h2 h
  | binlog rt ra rb rc nh => rfl
  | crbinlog bf bfa bfb msk rsv =>
    exact crBit_writeCrMasked_of_not_written s bf _ msk h1 h2 h

/-- What an instruction writes of the CR depends on no CR Field but those it reads. -/
theorem crBit_effect_congr {i : Instr} {s s' : State} (hgpr : ∀ r, s'.readGpr r = s.readGpr r) (hso : s'.so = s.so)
    (hconfig : s'.config = s.config) (hreads : ∀ n ∈ crReads i, s'.readCrField n = s.readCrField n) {k : Nat}
    (h1 : 32 ≤ k) (h2 : k ≤ 63) (h : crWrites k i = true) : (effect i s').crBit k = (effect i s).crBit k := by
  cases i with
  | ternlogi rt ra rb tli => simp [crWrites] at h
  | ternlogiRc rt ra rb tli =>
    have hk : k ≤ 35 := by simpa [crWrites, h1] using h
    have hresult : ternaryResult rt ra rb tli s' = ternaryResult rt ra rb tli s :=
      ternaryResult_congr tli (fun r _ => hgpr r) (by rw [hconfig])
    simp [effect, crBit_recordCr0 _ _ h1 h2, hk, hresult, hconfig, hso]
  | crternlogi bf bfa bfb tli msk =>
    rw [effect, effect, crBit_advance, crBit_advance, crBit_writeCrMasked_of_written s' bf _ msk h1 h2 h,
      crBit_writeCrMasked_of_written s bf _ msk h1 h2 h, hconfig, hreads bf (by simp [crReads]),
      hreads bfa (by simp [crReads]), hreads bfb (by simp [crReads])]
  | binlog rt ra rb rc nh => simp [crWrites] at h
  | crbinlog bf bfa bfb msk rsv =>
    rw [effect, effect, crBit_advance, crBit_advance, crBit_writeCrMasked_of_written s' bf _ msk h1 h2 h,
      crBit_writeCrMasked_of_written s bf _ msk h1 h2 h, hreads bf (by simp [crReads]), hreads bfa (by simp [crReads]),
      hreads bfb (by simp [crReads])]

/-- States with the same GPRs and index order go on to states with the same GPRs. -/
theorem readGpr_effect_eq (i : Instr) {s s' : State} (hgpr : ∀ r, s'.readGpr r = s.readGpr r)
    (horder : s'.config.lutOrder = s.config.lutOrder) (r : GprNum) :
    (effect i s').readGpr r = (effect i s).readGpr r := by
  by_cases hr : r ∈ gprWrites i
  · exact readGpr_effect_congr (fun r _ => hgpr r) horder hr
  · rw [readGpr_effect_of_not_written s hr, readGpr_effect_of_not_written s' hr, hgpr r]

/-- Settles O28: from the frame and the dependence of an instruction's effect, and the bits of the look-ups. -/
theorem crAccessByInstruction : Obligations.CrAccessByInstruction := by
  intro i s t h
  obtain ⟨hc, rfl⟩ := exec_eq_next_iff.1 h
  refine ⟨fun k h1 h2 => crBit_effect_of_not_written s h1 h2, fun s' hgpr hso hpc hconfig hreads => ?_, ?_, ?_⟩
  · have hexec : exec i s' = .next (effect i s') := exec_of_completes (by rwa [hconfig])
    obtain ⟨-, -, hpc₁⟩ := exec_next_keeps h
    obtain ⟨-, -, hpc₂⟩ := exec_next_keeps hexec
    have hpc' : (effect i s').pc = (effect i s).pc := by rw [hpc₁, hpc₂, hpc]
    exact ⟨effect i s', hexec, readGpr_effect_eq i hgpr (by rw [hconfig]), hpc',
      fun k h1 h2 => crBit_effect_congr hgpr hso hconfig hreads h1 h2⟩
  · rintro bf bfa bfb tli msk rfl k hk hsel
    exact isElement_fieldBit_crternlogi s bf bfa bfb tli hk hsel
  · rintro bf bfa bfb msk rsv rfl k hk hsel
    exact fieldBit_crbinlog s bf bfa bfb rsv hk hsel

/-- States hold the same GPRs when every read gives the same. -/
theorem gpr_eq_of_readGpr {s s' : State} (h : ∀ r, s'.readGpr r = s.readGpr r) : s'.gpr = s.gpr := by
  refine Vector.ext fun n hn => ?_
  have hread := h (BitVec.ofNat 5 n)
  simpa [State.readGpr, Nat.mod_eq_of_lt hn] using hread

/-- Whether and how an instruction goes on in a state that agrees on GPRs, CR, SO, index order and policy: to the same
GPRs and SO, and to the same CR if the mode agrees or the instruction is not `ternlogi.`. -/
theorem exec_congr {i : Instr} {s t s' : State} (h : exec i s = .next t) (hgpr : s'.gpr = s.gpr) (hcr : s'.cr = s.cr)
    (hso : s'.so = s.so) (horder : s'.config.lutOrder = s.config.lutOrder)
    (hpolicy : s'.config.reservedNonzero = s.config.reservedNonzero) :
    ∃ t', exec i s' = .next t' ∧ t'.gpr = t.gpr ∧ t'.so = t.so ∧
      ((i.mnemonic = .ternlogiRc → s'.config.mode64 = s.config.mode64) → t'.cr = t.cr) := by
  obtain ⟨hc, rfl⟩ := exec_eq_next_iff.1 h
  have hexec : exec i s' = .next (effect i s') := exec_of_completes (by rwa [hpolicy])
  have hread : ∀ r, s'.readGpr r = s.readGpr r := fun r => by rw [State.readGpr, State.readGpr]; simp only [hgpr]
  obtain ⟨hso₁, -, -⟩ := exec_next_keeps h
  obtain ⟨hso₂, -, -⟩ := exec_next_keeps hexec
  have hso' : (effect i s').so = (effect i s).so := by rw [hso₁, hso₂, hso]
  exact ⟨effect i s', hexec, gpr_eq_of_readGpr (readGpr_effect_eq i hread horder), hso',
    cr_effect_congr (fun r _ => hread r) hcr hso horder⟩

/-- `ternlogi.` writes no CR bit above those of CR Field 0. -/
theorem crWrites_of_ternlogiRc {i : Instr} (h : i.mnemonic = .ternlogiRc) {k : Nat} (hk : 36 ≤ k) :
    crWrites k i = false := by
  cases i with
  | ternlogiRc rt ra rb tli =>
    have hout : ¬ k ≤ 35 := by omega
    simp [crWrites, hout]
  | _ => cases h

/-- Settles O29: the mode is read by `ternlogi.` alone, which writes no CR bit above 35. -/
theorem modeAffectsOnlyTheRecordedCr0 : Obligations.ModeAffectsOnlyTheRecordedCr0 := by
  intro i s t s' h hgpr hcr hso horder hpolicy
  obtain ⟨t', hexec, hgpr', hso', hcr'⟩ := exec_congr h hgpr hcr hso horder hpolicy
  refine ⟨t', hexec, hgpr', hso', fun k h1 h2 => ?_, fun hne => hcr' fun heq => absurd heq hne⟩
  by_cases hrc : i.mnemonic = .ternlogiRc
  · have hk : crWrites k i = false := crWrites_of_ternlogiRc hrc h1
    obtain ⟨-, rfl⟩ := exec_eq_next_iff.1 h
    obtain ⟨-, rfl⟩ := exec_eq_next_iff.1 hexec
    rw [crBit_effect_of_not_written s (by omega) h2 hk, crBit_effect_of_not_written s' (by omega) h2 hk, State.crBit,
      State.crBit, hcr]
  · rw [State.crBit, State.crBit, hcr' fun heq => absurd heq hrc]

/-- Settles O30: an instruction reads the deciding parameters and the registers, and adds 4 to the pc it has. -/
theorem executionIsPositionIndependent : Obligations.ExecutionIsPositionIndependent := by
  intro i s t s' h hgpr hcr hso horder hpolicy hmode
  obtain ⟨t', hexec, hgpr', hso', hcr'⟩ := exec_congr h hgpr hcr hso horder hpolicy
  obtain ⟨-, hconfig, hpc⟩ := exec_next_keeps hexec
  exact ⟨t', hexec, hgpr', hcr' fun _ => hmode, hso', hconfig, hpc⟩

end Sys2Proof.Machine
end

section
/-! The fetch and the step (20 R41, 30 R56, 60 R121, 70 R145). -/

namespace Sys2Proof.Machine

/-- Settles O31: the step of a fetched word that decodes is the instruction's meaning. -/
theorem stepRunsTheDecodedInstruction : Obligations.StepRunsTheDecodedInstruction := by
  intro s w i hw hi
  rw [step_of_word hw, stepWord_of_instr hi]

theorem stepWord_of_outside {s : State} {w : Word} (h : decode s.config.opcodes w = .rejected .wordOutsideSpec) :
    stepWord w s = .refused (.wordOutsideSpec w) := by
  simp [stepWord, h]

theorem stepWord_of_ambiguous {s : State} {w : Word} (h : decode s.config.opcodes w = .rejected .ambiguousOpcode) :
    stepWord w s = .refused (.ambiguousOpcode w) := by
  simp [stepWord, h]

/-- Settles O32: a word of no row is rejected by the decoder, and its step is the refusal. -/
theorem foreignWordIsRefused : Obligations.ForeignWordIsRefused := by
  intro s w hw hrow
  rw [step_of_word hw, stepWord_of_outside (decode_of_no_row hrow)]

/-- A trapping word is one that decodes to an instruction with a zero mask. -/
theorem trappingWord_iff {c : Config} {w : Word} :
    trappingWord c w ↔ ∃ i, decode c.opcodes w = .instr i ∧ i.ZeroMask := by
  constructor
  · rintro (⟨bf, bfa, bfb, tli, h⟩ | ⟨bf, bfa, bfb, rsv, h⟩)
    · exact ⟨_, h, .inl ⟨bf, bfa, bfb, tli, rfl⟩⟩
    · exact ⟨_, h, .inr ⟨bf, bfa, bfb, rsv, rfl⟩⟩
  · rintro ⟨i, h, ⟨bf, bfa, bfb, tli, rfl⟩ | ⟨bf, bfa, bfb, rsv, rfl⟩⟩
    · exact .inl ⟨bf, bfa, bfb, tli, h⟩
    · exact .inr ⟨bf, bfa, bfb, rsv, h⟩

/-- Settles O26: the record holds the encoding of what the word decodes to, which is the word. -/
theorem trapRecordsTheWordAndItsAddress : Obligations.TrapRecordsTheWordAndItsAddress := by
  intro s w hw htrap
  obtain ⟨i, hi, hzero⟩ := trappingWord_iff.1 htrap
  rw [stepRunsTheDecodedInstruction s w i hw hi, exec_eq_fault_iff.2 ⟨hzero, rfl⟩,
    encodeInvertsDecode s.config.opcodes w i hi]

/-- Settles O43: by the decoder's answer; a refused instruction's refusal holds its word again. -/
theorem textTestTellsTheStepsRefusal : Obligations.TextTestTellsTheStepsRefusal := by
  intro s w r hw
  rw [step_of_word hw]
  match hd : decode s.config.opcodes w with
  | .instr i =>
    rw [stepWord_of_instr hd, refusalOfWord_of_instr hd, exec_eq_refused_iff,
      encodeInvertsDecode s.config.opcodes w i hd]
    split
    · next hr => simp [hr, eq_comm]
    · next hr => simp [hr]
  | .rejected .wordOutsideSpec =>
    rw [stepWord_of_outside hd, refusalOfWord_of_outside hd]
    simp
  | .rejected .ambiguousOpcode =>
    rw [stepWord_of_ambiguous hd, refusalOfWord_of_ambiguous hd]
    simp

/-- A word of the text is fetched at its address (20 R41). -/
theorem fetch_eq_word_of_pc {s : State} {k : Nat} {w : Word} (hlaw : lawfulConfig s.config)
    (hw : s.config.text[k]? = some w) (hpc : s.pc = s.config.textBase + BitVec.ofNat 64 (4 * k)) :
    s.fetch = .word w := by
  obtain ⟨-, hfits, -⟩ := hlaw
  have hk : k < s.config.text.length := (List.getElem?_eq_some_iff.1 hw).1
  have hoff : textOffset s.config s.pc = 4 * k := by rw [hpc, textOffset_base_add _ (by omega)]
  rw [fetch_eq_word_iff, hoff, Nat.mul_mod_right, Nat.mul_div_cancel_left k (by decide)]
  exact ⟨rfl, hw⟩

/-- The end of the text is told at its address, if the address is not the wrapped TEXT_BASE. -/
theorem step_eq_endOfText_of_pc {s : State} (hlen : 4 * s.config.text.length < 2 ^ 64)
    (hpc : s.pc = s.config.textBase + BitVec.ofNat 64 (4 * s.config.text.length)) :
    step s = .refused .endOfText := by
  have hoff : textOffset s.config s.pc = 4 * s.config.text.length := by rw [hpc, textOffset_base_add _ hlen]
  have hended : s.fetch = .ended := by
    rw [fetch_eq_ended_iff, hoff, Nat.mul_mod_right, Nat.mul_div_cancel_left _ (by decide)]
    exact ⟨rfl, rfl⟩
  simp [step, hended]

/-- An address whose offset is a multiple of 4 is TEXT_BASE and that many words. -/
theorem pc_eq_base_add_of_aligned {s : State} (h : textOffset s.config s.pc % 4 = 0) :
    s.pc = s.config.textBase + BitVec.ofNat 64 (4 * (textOffset s.config s.pc / 4)) := by
  rw [show 4 * (textOffset s.config s.pc / 4) = textOffset s.config s.pc by omega, base_add_textOffset]

/-- A fetched word is a word of the text, at its address. -/
theorem exists_index_of_fetch_word {s : State} {w : Word} (h : s.fetch = .word w) :
    ∃ k, s.config.text[k]? = some w ∧ s.pc = s.config.textBase + BitVec.ofNat 64 (4 * k) := by
  obtain ⟨halign, hw⟩ := (fetch_eq_word_iff s w).1 h
  exact ⟨_, hw, pc_eq_base_add_of_aligned halign⟩

/-- The step at an address of no word and not of the end (20 R41, R44). -/
theorem step_eq_fetchOutsideText {s : State}
    (h : ∀ k, k ≤ s.config.text.length → s.pc ≠ s.config.textBase + BitVec.ofNat 64 (4 * k)) :
    step s = .fault (.fetchOutsideText s.pc) := by
  unfold step
  split
  · next w hw =>
    obtain ⟨k, hk, hpc⟩ := exists_index_of_fetch_word hw
    exact absurd hpc (h k (List.getElem?_eq_some_iff.1 hk).1.le)
  · next hended =>
    obtain ⟨halign, hlen⟩ := (fetch_eq_ended_iff s).1 hended
    exact absurd (pc_eq_base_add_of_aligned halign) (h _ hlen.le)
  · rfl

/-- Settles O33: the three kinds of address. -/
theorem fetchReadsTheTextAndNothingElse : Obligations.FetchReadsTheTextAndNothingElse := by
  intro s hlaw
  exact ⟨fun _ _ hw hpc => fetch_eq_word_of_pc hlaw hw hpc, step_eq_endOfText_of_pc, step_eq_fetchOutsideText⟩

/-- A step that goes on keeps what a completing instruction keeps. -/
theorem keepsRest_of_step_next {s t : State} (h : step s = .next t) : keepsRest s t := by
  obtain ⟨w, i, -, -, hexec⟩ := step_next_cases h
  exact keepsRest_of_exec_next hexec

/-- Settles O34: the frame of the instruction that the step ran. -/
theorem stepKeepsSoTextAndConfiguration : Obligations.StepKeepsSoTextAndConfiguration := by
  intro s t h
  obtain ⟨-, hconfig, -, hpc⟩ := keepsRest_of_step_next h
  exact ⟨keepsRest_of_step_next h, by rw [hconfig], by rw [hpc, BitVec.toNat_add]; rfl⟩

/-- The address of the word after word `k`. -/
theorem base_add_succ (c : Config) (k : Nat) :
    c.textBase + BitVec.ofNat 64 (4 * k) + 4 = c.textBase + BitVec.ofNat 64 (4 * (k + 1)) := by
  rw [Nat.mul_succ, BitVec.ofNat_add, ← BitVec.add_assoc]
  rfl

/-- Above a TEXT_BASE that is a multiple of 4 every word's address is one, wrapped or not (20 R43). -/
theorem base_add_aligned {c : Config} (h : c.textBase.toNat % 4 = 0) (k : Nat) :
    (c.textBase + BitVec.ofNat 64 (4 * k)).toNat % 4 = 0 := by
  rw [BitVec.toNat_add, BitVec.toNat_ofNat]
  omega

/-- Settles O35: a step that goes on has fetched word `k` of the text, so the next pc is that of word `k + 1` or the
end; the configuration stays. -/
theorem stepKeepsTheRunInvariant : Obligations.StepKeepsTheRunInvariant := by
  rintro s t ⟨hlaw, -⟩ h
  obtain ⟨w, i, hw, -, -⟩ := step_next_cases h
  obtain ⟨k, hk, hpc⟩ := exists_index_of_fetch_word hw
  obtain ⟨-, hconfig, -, hpc'⟩ := keepsRest_of_step_next h
  have hnext : t.pc = t.config.textBase + BitVec.ofNat 64 (4 * (k + 1)) := by
    rw [hpc', hpc, base_add_succ, hconfig]
  have hlaw' : lawfulConfig t.config := hconfig ▸ hlaw
  have hle : k + 1 ≤ t.config.text.length := hconfig ▸ (List.getElem?_eq_some_iff.1 hk).1
  exact ⟨⟨hlaw', k + 1, hle, hnext⟩, hnext ▸ base_add_aligned hlaw'.1 (k + 1)⟩

/-- Settles O36: the launch text is empty, so its pc is at both ends of it. -/
theorem resetHasTheRunInvariant : Obligations.ResetHasTheRunInvariant :=
  ⟨⟨by decide, by decide, by decide⟩, 0, le_rfl, rfl⟩

/-- Settles O37: the fields of the launch state. -/
theorem resetStandsAtTextBaseInTheSpecsModes : Obligations.ResetStandsAtTextBaseInTheSpecsModes :=
  ⟨rfl, rfl, rfl, rfl⟩

end Sys2Proof.Machine
end

section
/-! The run of a program: what its words say of its end (70 R145). -/

namespace Sys2Proof.Machine

/-- The step of a runnable word goes on to the next word's address, in the same configuration. -/
theorem step_of_runnable {s : State} {c : Config} (hconfig : s.config = c) (hlaw : lawfulConfig c) {k : Nat} {w : Word}
    (hpc : s.pc = c.textBase + BitVec.ofNat 64 (4 * k)) (hw : c.text[k]? = some w) (hrun : runnableWord c w) :
    ∃ t, step s = .next t ∧ t.pc = c.textBase + BitVec.ofNat 64 (4 * (k + 1)) ∧ t.config = c := by
  subst hconfig
  obtain ⟨i, hi, hc⟩ := hrun
  have hstep : step s = .next (effect i s) := by
    rw [stepRunsTheDecodedInstruction s w i (fetch_eq_word_of_pc hlaw hw hpc) hi, exec_of_completes hc]
  obtain ⟨-, hconfig, -, hpc'⟩ := keepsRest_of_step_next hstep
  exact ⟨_, hstep, by rw [hpc', hpc, base_add_succ], hconfig⟩

/-- The first `k` words, all runnable, are run in `k` steps. -/
theorem run_of_runnable_prefix {s : State} (hlaw : lawfulConfig s.config) (hpc : s.pc = s.config.textBase) {k : Nat}
    (hk : k ≤ s.config.text.length) (hrun : ∀ j < k, ∀ v, s.config.text[j]? = some v → runnableWord s.config v) :
    ∃ t, run k s = .next t ∧ t.pc = s.config.textBase + BitVec.ofNat 64 (4 * k) ∧ t.config = s.config := by
  induction k with
  | zero => exact ⟨s, rfl, by simp [hpc], rfl⟩
  | succ k ih =>
    obtain ⟨t, ht, hpct, hconfig⟩ := ih (by omega) fun j hj => hrun j (by omega)
    have hw : s.config.text[k]? = some s.config.text[k] := List.getElem?_eq_getElem hk
    obtain ⟨u, hu, hpcu, hconfigu⟩ := step_of_runnable hconfig hlaw hpct hw (hrun k (by omega) _ hw)
    refine ⟨u, ?_, hpcu, hconfigu⟩
    rw [run_add_of_next 1 ht, run_succ_of_next hu, run_zero]

/-- An instruction that completes is not refused. -/
theorem refusedInstr_of_completes {policy : ReservedPolicy} {i : Instr} (h : completes policy i = true) :
    refusedInstr policy i = false := by
  rw [Bool.eq_false_iff]
  intro hr
  obtain ⟨bf, bfa, bfb, msk, rsv, rfl, hmsk, hrsv, rfl⟩ := refusedInstr_eq_true_iff.1 hr
  simp [completes, hrsv] at h

theorem refusalOfWord_of_runnable {c : Config} {w : Word} (h : runnableWord c w) : refusalOfWord c w = none := by
  obtain ⟨i, hi, hc⟩ := h
  exact refusalOfWord_eq_none_iff.2 ⟨i, hi, refusedInstr_of_completes hc⟩

/-- Settles O38: all `L` words are run, and none of them is refused. -/
theorem straightLineTextRunsToItsEnd : Obligations.StraightLineTextRunsToItsEnd := by
  intro s hlaw hpc hall
  obtain ⟨t, ht, hpct, hconfig⟩ := run_of_runnable_prefix hlaw hpc le_rfl
    fun j _ v hv => hall v (List.mem_of_getElem? hv)
  have hnone : programRefusal s.config = none :=
    programRefusal_eq_none_iff.2 fun w hw => refusalOfWord_of_runnable (hall w hw)
  refine ⟨t, ht, hpct, hconfig, runProgram_of_next hnone ht, fun hlen => ?_⟩
  rw [← hconfig] at hlen hpct
  exact step_eq_endOfText_of_pc hlen hpct

/-- Once a step faults, every larger number of steps is that fault. -/
theorem run_of_step_fault {s : State} {f : Fault} (h : step s = .fault f) (n : Nat) : run (n + 1) s = .fault f := by
  simp [run, h]

/-- Settles O39: the words before `k` are run, and the step of word `k` is its trap. -/
theorem runStopsAtTheFirstTrappingWord : Obligations.RunStopsAtTheFirstTrappingWord := by
  intro s k w hlaw hpc hw htrap hbefore
  have hk : k < s.config.text.length := (List.getElem?_eq_some_iff.1 hw).1
  obtain ⟨t, ht, hpct, hconfig⟩ := run_of_runnable_prefix hlaw hpc hk.le hbefore
  have hstep : step t = .fault (.illegalInstruction w t.pc) := by
    rw [← hconfig] at hlaw hw htrap hpct
    exact trapRecordsTheWordAndItsAddress t w (fetch_eq_word_of_pc hlaw hw hpct) htrap
  have hfault : ∀ n, k < n → run n s =
      .fault (.illegalInstruction w (s.config.textBase + BitVec.ofNat 64 (4 * k))) := by
    intro n hn
    obtain ⟨m, rfl⟩ := Nat.exists_eq_add_of_lt hn
    rw [Nat.add_assoc, run_add_of_next (m + 1) ht, run_of_step_fault hstep, hpct]
  exact ⟨⟨t, ht, hpct⟩, hfault, fun hnone => runProgram_of_fault hnone (hfault _ hk)⟩

/-- An instruction with a zero mask does not complete, whatever the policy. -/
theorem completes_of_zeroMask {i : Instr} (policy : ReservedPolicy) (h : i.ZeroMask) : completes policy i = false := by
  obtain ⟨bf, bfa, bfb, tli, rfl⟩ | ⟨bf, bfa, bfb, rsv, rfl⟩ := h <;> rfl

/-- No word both completes and traps. -/
theorem not_runnable_of_trapping {c : Config} {w : Word} (h : trappingWord c w) : ¬ runnableWord c w := by
  obtain ⟨i, hi, hzero⟩ := trappingWord_iff.1 h
  rintro ⟨i', hi', hc⟩
  obtain rfl : i = i' := DecodeResult.instr.inj (hi.symm.trans hi')
  rw [completes_of_zeroMask c.reservedNonzero hzero] at hc
  cases hc

/-- In a lawful configuration the whole-text test tells the refused words (70 R145). -/
theorem refusalOfWord_eq_none_iff_not_refusedWord {c : Config} (hlaw : lawfulConfig c) (w : Word) :
    refusalOfWord c w = none ↔ ¬ refusedWord c w := by
  obtain ⟨-, -, hvalid⟩ := hlaw
  rw [refusalOfWord_eq_none_iff]
  constructor
  · rintro ⟨i, hi, hnot⟩ (hrow | ⟨bf, bfa, bfb, msk, rsv, hdec, hmsk, hrsv, hpolicy⟩)
    · rw [decode_of_no_row hrow] at hi
      cases hi
    · obtain rfl := DecodeResult.instr.inj (hi.symm.trans hdec)
      rw [refusedInstr_eq_true_iff.2 ⟨bf, bfa, bfb, msk, rsv, rfl, hmsk, hrsv, hpolicy⟩] at hnot
      cases hnot
  · intro h
    obtain ⟨m, hm⟩ : ∃ m, rowSelects c.opcodes w m = true := by
      by_contra hnone
      exact h (.inl fun m => Bool.eq_false_iff.2 fun hm => hnone ⟨m, hm⟩)
    refine ⟨_, decode_of_selects hvalid hm, Bool.eq_false_iff.2 fun hr => h (.inr ?_)⟩
    obtain ⟨bf, bfa, bfb, msk, rsv, hi, hrest⟩ := refusedInstr_eq_true_iff.1 hr
    exact ⟨bf, bfa, bfb, msk, rsv, hi ▸ decode_of_selects hvalid hm, hrest⟩

/-- A word that is not refused completes or traps. -/
theorem runnable_or_trapping {c : Config} {w : Word} (h : refusalOfWord c w = none) :
    runnableWord c w ∨ trappingWord c w := by
  obtain ⟨i, hi, hnot⟩ := refusalOfWord_eq_none_iff.1 h
  rcases completes_or_zeroMask_or_refused c.reservedNonzero i with hc | hz | hr
  · exact .inl ⟨i, hi, hc⟩
  · exact .inr (trappingWord_iff.2 ⟨i, hi, hz⟩)
  · simp [hnot] at hr

/-- A text without refused words that holds a trapping word has a first one, and the words before it complete. -/
theorem exists_first_trapping {c : Config} (hnone : programRefusal c = none)
    (htrap : ∃ w ∈ c.text, trappingWord c w) :
    ∃ (k : Nat) (w : Word), c.text[k]? = some w ∧ trappingWord c w ∧
      ∀ j < k, ∀ v, c.text[j]? = some v → runnableWord c v := by
  classical
  have hex : ∃ (k : Nat) (w : Word), c.text[k]? = some w ∧ trappingWord c w := by
    obtain ⟨w, hw, ht⟩ := htrap
    obtain ⟨k, hk⟩ := List.mem_iff_getElem?.1 hw
    exact ⟨k, w, hk, ht⟩
  obtain ⟨w, hw, ht⟩ := Nat.find_spec hex
  refine ⟨Nat.find hex, w, hw, ht, fun j hj v hv => ?_⟩
  have hnot : ¬ trappingWord c v := fun htv => Nat.find_min hex hj ⟨v, hv, htv⟩
  exact (runnable_or_trapping (programRefusal_eq_none_iff.1 hnone v (List.mem_of_getElem? hv))).resolve_right hnot

/-- A program that holds a trapping word and no refused one ends in a fault, that of the first trapping word. -/
theorem runProgram_faulted {s : State} (hlaw : lawfulConfig s.config) (hpc : s.pc = s.config.textBase)
    (hnone : programRefusal s.config = none) (htrap : ∃ w ∈ s.config.text, trappingWord s.config w) :
    ∃ f, runProgram s = .faulted f := by
  obtain ⟨k, w, hw, ht, hbefore⟩ := exists_first_trapping hnone htrap
  obtain ⟨-, -, hend⟩ := runStopsAtTheFirstTrappingWord s k w hlaw hpc hw ht hbefore
  exact ⟨_, hend hnone⟩

/-- Settles O42: a text holds a refused word, or else a trapping one, or else only words that complete, and each of
the three has its own end. -/
theorem programEndsAsItsWordsSay : Obligations.ProgramEndsAsItsWordsSay := by
  intro s hlaw hpc
  have hnot_refused := refusalOfWord_eq_none_iff_not_refusedWord hlaw
  cases hprog : programRefusal s.config with
  | some r =>
    obtain ⟨w, hw, hr⟩ := List.exists_of_findSome?_eq_some hprog
    have hrefused : refusedWord s.config w := by
      by_contra h
      rw [(hnot_refused w).2 h] at hr
      cases hr
    rw [runProgram_of_refused hprog]
    exact ⟨iff_of_false nofun fun h => (hnot_refused w).1 (refusalOfWord_of_runnable (h w hw)) hrefused,
      iff_of_false nofun fun ⟨_, h⟩ => h w hw hrefused, iff_of_true ⟨r, rfl⟩ ⟨w, hw, hrefused⟩⟩
  | none =>
    have hword : ∀ w ∈ s.config.text, refusalOfWord s.config w = none := programRefusal_eq_none_iff.1 hprog
    have hnone : ∀ w ∈ s.config.text, ¬ refusedWord s.config w := fun w hw => (hnot_refused w).1 (hword w hw)
    by_cases htrap : ∃ w ∈ s.config.text, trappingWord s.config w
    · obtain ⟨f, hf⟩ := runProgram_faulted hlaw hpc hprog htrap
      obtain ⟨w, hw, ht⟩ := htrap
      rw [hf]
      exact ⟨iff_of_false nofun fun h => not_runnable_of_trapping ht (h w hw),
        iff_of_true ⟨f, rfl⟩ ⟨⟨w, hw, ht⟩, hnone⟩, iff_of_false nofun fun ⟨v, hv, h⟩ => hnone v hv h⟩
    · have hall : ∀ w ∈ s.config.text, runnableWord s.config w := fun w hw =>
        (runnable_or_trapping (hword w hw)).resolve_right fun ht => htrap ⟨w, hw, ht⟩
      obtain ⟨t, -, -, -, ht, -⟩ := straightLineTextRunsToItsEnd s hlaw hpc hall
      rw [ht]
      exact ⟨iff_of_true ⟨t, rfl⟩ hall, iff_of_false nofun fun ⟨h, _⟩ => htrap h,
        iff_of_false nofun fun ⟨v, hv, h⟩ => hnone v hv h⟩

end Sys2Proof.Machine
end

section
/-! The bytes of the text region (20 R42, R44). -/

namespace Sys2Proof.Machine

/-- Settles O40: byte `j` of word `k` lies at offset `4k + j`, and an offset in the region is of that form. -/
theorem textBytesLieInTheByteOrder : Obligations.TextBytesLieInTheByteOrder := by
  rintro s ⟨-, hfits, -⟩
  refine ⟨fun k j w hw hj => ?_, fun a ha => ?_⟩
  · have hk : k < s.config.text.length := (List.getElem?_eq_some_iff.1 hw).1
    have hoff : textOffset s.config (s.config.textBase + BitVec.ofNat 64 (4 * k + j)) = 4 * k + j :=
      textOffset_base_add _ (by omega)
    have hword : (4 * k + j) / 4 = k := by omega
    have hbyte : (4 * k + j) % 4 = j := by omega
    refine ⟨byteOfWord s.config.insnByteOrder w j, ?_, fun i hi horder => ?_, fun i hi horder => ?_⟩
    · rw [State.readByte, hoff, hword, hbyte, hw, Option.map_some]
    · rw [getMsbD_byteOfWord _ w hj hi, horder]
    · rw [getMsbD_byteOfWord _ w hj hi, horder]
  · have hlen : s.config.text.length ≤ textOffset s.config a / 4 := by
      by_contra hlt
      refine ha (textOffset s.config a / 4) (textOffset s.config a % 4) (by omega) (by omega) ?_
      rw [Nat.div_add_mod, base_add_textOffset]
    rw [State.readByte, List.getElem?_eq_none hlen, Option.map_none]

/-- Settles O41: the image of the words' bytes is those words. -/
theorem loadingTheBytesOfWordsGivesTheText : Obligations.LoadingTheBytesOfWordsGivesTheText := by
  intro s base ws
  have hload : s.loadBytes base (ws.flatMap (bytesOfWord s.config.insnByteOrder)) =
      some { s with pc := base, config := withText s.config base ws } := by
    rw [State.loadBytes, wordsOfBytes_flatMap, Option.map_some]
  exact ⟨_, hload, rfl, rfl, rfl, rfl, rfl, rfl, rfl⟩

end Sys2Proof.Machine
end
